-- ==== Sys2Proof/Word.lean ====
section
/-!
DEFINITION. The words of the block: bytes, the unsigned field widths of the wire formats, and bits.
Every integer of the block is unsigned (spec/00_scope.md R14). Positions and lengths are natural
numbers (R17 (c), (d)), so they have no type here.
-/

namespace Sys2Proof

/-- A byte: 8 bits, bit 7 the most significant (R13). -/
abbrev Byte := BitVec 8

/-- `u16`: ids, section counts, RecordType and RecordClass wire codes (R23, R67). -/
abbrev U16 := BitVec 16

/-- `u4`: Opcode and ResponseCode wire codes (R67). -/
abbrev U4 := BitVec 4

/-- The six low bits of a length byte (R63, R68). -/
abbrev U6 := BitVec 6

end Sys2Proof
end

