-- ==== Sys2Proof/Config.lean ====
section
/-!
DEFINITION. The parameters the spec fixes (spec/00_scope.md R9). The parameters it leaves open (R10)
need no value here: buffers, names and messages are unbounded lists, and the cursor's byte offset is a
natural number. No value of this block is undefined, so there is no free value.
-/

namespace Sys2Proof.Config

/-- `HDR_BITS`: width of the header in bits (R9). -/
def hdrBits : Nat := 96

/-- `LABEL_MAX`: greatest length of one label in bytes (R9). -/
def labelMax : Nat := 63

/-- `NAME_MAX`: greatest encoded length of a name in bytes (R9). -/
def nameMax : Nat := 255

/-- `TAKE_MIN`: least width of one cursor read (R9). -/
def takeMin : Nat := 1

/-- `TAKE_MAX`: greatest width of one cursor read (R9). -/
def takeMax : Nat := 16

end Sys2Proof.Config
end

