-- ==== Sys2Proof/Syntax.lean ====
section
/-!
DEFINITION. What the block handles, as plain data: the four closed enumerations, the records of
spec/10_state.md (header, name, question, message, cursor), the eight errors, and the instructions,
one constructor for each row of spec/opcode_table.json. An operation row (27) is the bare
operation: its operands are the transaction's (spec/30_encoding.md R83), held in the machine's state.
A wire-format row (10) or code row (30) is one element of a wire format, carrying the fields the
element encodes.
-/

namespace Sys2Proof

/-! ## The enumerations (spec/30_encoding.md R69 to R72): closed sets of variants. -/

/-- RecordType, 17 variants (R69). -/
inductive RecordType where
  | A | NS | MD | MF | CNAME | SOA | MB | MG | MR
  | NULL | WKS | PTR | HINFO | MINFO | MX | TXT | AAAA
  deriving DecidableEq, Repr

/-- RecordClass, 4 variants (R70). -/
inductive RecordClass where
  | IN | CS | CH | HS
  deriving DecidableEq, Repr

/-- Opcode, the header's kind-of-query field, 3 variants (R71). -/
inductive Opcode where
  | Query | InverseQuery | Status
  deriving DecidableEq, Repr

/-- ResponseCode, the header's response status, 6 variants (R72). -/
inductive ResponseCode where
  | NoError | FormatError | ServerFailure | NameError | NotImplemented | Refused
  deriving DecidableEq, Repr

/-- The query/response flag, a tag and not a Boolean (spec/42_header.md R121). -/
inductive QR where
  | Query | Response
  deriving DecidableEq, Repr

/-! ## The records (spec/10_state.md R23 to R27). -/

/-- The header record: the twelve stored fields, in wire order. The reserved field Z is not stored
(R23, R123); the opcode and the response code are variants, never raw codes. -/
structure Header where
  id      : U16
  qr      : QR
  opcode  : Opcode
  aa      : Bool
  tc      : Bool
  rd      : Bool
  ra      : Bool
  rcode   : ResponseCode
  qdcount : U16
  ancount : U16
  nscount : U16
  arcount : U16
  deriving DecidableEq, Repr

/-- A label: opaque bytes (R25, R136). The type admits ill-formed labels; the operations say what
each does with one. -/
abbrev Label := List Byte

/-- A name: an ordered sequence of labels, possibly empty, the root (R25). -/
abbrev Name := List Label

/-- The question record (R26). -/
structure Question where
  name   : Name
  qtype  : RecordType
  qclass : RecordClass
  deriving DecidableEq, Repr

/-- The message record; nothing forces the header's QDCOUNT to equal the number of questions (R27). -/
structure Message where
  hdr : Header
  qs  : List Question
  deriving DecidableEq, Repr

/-- The cursor's position: a byte offset and a bit offset in that byte, bit offset 0 the most
significant bit (R24). Raw data: an ill-formed position can be presented, and is refused (R95). -/
structure Cursor where
  byte : Nat
  bit  : Nat
  deriving DecidableEq, Repr

/-- The eight errors (spec/60_exceptions.md R160). An error carries no further information (R161). -/
inductive Err where
  | Underrun | Truncated | MalformedReserved | UnsupportedCode | CompressionUnsupported
  | LabelTooLong | NameTooLong | EmptyLabel
  deriving DecidableEq, Repr

/-! ## The instructions: one constructor for each row of spec/opcode_table.json. -/

/-- The rows of the opcode table, in the table's order. -/
inductive Instr where
  -- BitCursor operations (spec/40_bitcursor.md).
  /-- TAKE, OPSEL 0x01 (R90). -/
  | take
  /-- TAKE_BIT, OPSEL 0x02 (R91). -/
  | takeBit
  /-- TAKE_NIBBLE, OPSEL 0x03 (R92). -/
  | takeNibble
  /-- TAKE_U16, OPSEL 0x04 (R93). -/
  | takeU16
  -- Enumeration operations (spec/41_enumerations.md).
  /-- RTYPE_DECODE, OPSEL 0x05 (R101). -/
  | rtypeDecode
  /-- RTYPE_ENCODE, OPSEL 0x06 (R102). -/
  | rtypeEncode
  /-- RTYPE_BITS, OPSEL 0x07 (R103). -/
  | rtypeBits
  /-- RCLASS_DECODE, OPSEL 0x08 (R104). -/
  | rclassDecode
  /-- RCLASS_ENCODE, OPSEL 0x09 (R105). -/
  | rclassEncode
  /-- RCLASS_BITS, OPSEL 0x0A (R106). -/
  | rclassBits
  /-- OPCODE_DECODE, OPSEL 0x0B (R107). -/
  | opcodeDecode
  /-- OPCODE_ENCODE, OPSEL 0x0C (R108). -/
  | opcodeEncode
  /-- OPCODE_BITS, OPSEL 0x0D (R109). -/
  | opcodeBits
  /-- RCODE_DECODE, OPSEL 0x0E (R110). -/
  | rcodeDecode
  /-- RCODE_ENCODE, OPSEL 0x0F (R111). -/
  | rcodeEncode
  /-- RCODE_BITS, OPSEL 0x10 (R112). -/
  | rcodeBits
  -- MessageHeader operations (spec/42_header.md).
  /-- HDR_NEW, OPSEL 0x11 (R122). -/
  | hdrNew
  /-- HDR_ENCODE, OPSEL 0x12 (R124). -/
  | hdrEncode
  /-- HDR_DECODE, OPSEL 0x13 (R125). -/
  | hdrDecode
  -- DomainName operations (spec/43_name.md).
  /-- NAME_SPLIT, OPSEL 0x14 (R131). -/
  | nameSplit
  /-- NAME_ENCODE, OPSEL 0x15 (R132). -/
  | nameEncode
  /-- NAME_DECODE, OPSEL 0x16 (R134). -/
  | nameDecode
  -- Question operations (spec/44_question.md).
  /-- Q_ENCODE, OPSEL 0x17 (R141). -/
  | qEncode
  /-- Q_DECODE, OPSEL 0x18 (R142). -/
  | qDecode
  -- Message operations (spec/45_message.md).
  /-- MSG_BUILD, OPSEL 0x19 (R151). -/
  | msgBuild
  /-- MSG_ENCODE, OPSEL 0x1A (R153). -/
  | msgEncode
  /-- MSG_DECODE, OPSEL 0x1B (R155). -/
  | msgDecode
  -- Elements of the wire formats (spec/30_encoding.md R61 to R68).
  /-- HEADER: a header, 96 bits (R61). -/
  | header (h : Header)
  /-- LENGTH_BYTE.ROOT: the length byte 0: the root label (R68). -/
  | lengthByteRoot
  /-- LENGTH_BYTE.LABEL: a length byte 1 to 63: the length of the label that follows (R68). -/
  | lengthByteLabel (len : U6)
  /-- LENGTH_BYTE.RESERVED_01: a length byte 64 to 127: reserved (R68). -/
  | lengthByteReserved01 (x : U6)
  /-- LENGTH_BYTE.RESERVED_10: a length byte 128 to 191: reserved (R68). -/
  | lengthByteReserved10 (x : U6)
  /-- LENGTH_BYTE.RESERVED_11: a length byte 192 to 255: reserved (R68). -/
  | lengthByteReserved11 (x : U6)
  /-- LABEL: a label: its length byte and its bytes (R63). -/
  | label (l : Label)
  /-- NAME: a name: its labels and the root label (R64). -/
  | name (n : Name)
  /-- QUESTION: a question: name, QTYPE, QCLASS (R65). -/
  | question (q : Question)
  /-- MESSAGE: a message: header and questions (R66). -/
  | message (m : Message)
  -- The wire codes of the enumerations (spec/30_encoding.md R69 to R72).
  /-- RecordType.A: the 16-bit code 1 (R69). -/
  | recordTypeA
  /-- RecordType.NS: the 16-bit code 2 (R69). -/
  | recordTypeNS
  /-- RecordType.MD: the 16-bit code 3 (R69). -/
  | recordTypeMD
  /-- RecordType.MF: the 16-bit code 4 (R69). -/
  | recordTypeMF
  /-- RecordType.CNAME: the 16-bit code 5 (R69). -/
  | recordTypeCNAME
  /-- RecordType.SOA: the 16-bit code 6 (R69). -/
  | recordTypeSOA
  /-- RecordType.MB: the 16-bit code 7 (R69). -/
  | recordTypeMB
  /-- RecordType.MG: the 16-bit code 8 (R69). -/
  | recordTypeMG
  /-- RecordType.MR: the 16-bit code 9 (R69). -/
  | recordTypeMR
  /-- RecordType.NULL: the 16-bit code 10 (R69). -/
  | recordTypeNULL
  /-- RecordType.WKS: the 16-bit code 11 (R69). -/
  | recordTypeWKS
  /-- RecordType.PTR: the 16-bit code 12 (R69). -/
  | recordTypePTR
  /-- RecordType.HINFO: the 16-bit code 13 (R69). -/
  | recordTypeHINFO
  /-- RecordType.MINFO: the 16-bit code 14 (R69). -/
  | recordTypeMINFO
  /-- RecordType.MX: the 16-bit code 15 (R69). -/
  | recordTypeMX
  /-- RecordType.TXT: the 16-bit code 16 (R69). -/
  | recordTypeTXT
  /-- RecordType.AAAA: the 16-bit code 28 (R69). -/
  | recordTypeAAAA
  /-- RecordClass.IN: the 16-bit code 1 (R70). -/
  | recordClassIN
  /-- RecordClass.CS: the 16-bit code 2 (R70). -/
  | recordClassCS
  /-- RecordClass.CH: the 16-bit code 3 (R70). -/
  | recordClassCH
  /-- RecordClass.HS: the 16-bit code 4 (R70). -/
  | recordClassHS
  /-- Opcode.Query: the 4-bit code 0 (R71). -/
  | opcodeQuery
  /-- Opcode.InverseQuery: the 4-bit code 1 (R71). -/
  | opcodeInverseQuery
  /-- Opcode.Status: the 4-bit code 2 (R71). -/
  | opcodeStatus
  /-- ResponseCode.NoError: the 4-bit code 0 (R72). -/
  | responseCodeNoError
  /-- ResponseCode.FormatError: the 4-bit code 1 (R72). -/
  | responseCodeFormatError
  /-- ResponseCode.ServerFailure: the 4-bit code 2 (R72). -/
  | responseCodeServerFailure
  /-- ResponseCode.NameError: the 4-bit code 3 (R72). -/
  | responseCodeNameError
  /-- ResponseCode.NotImplemented: the 4-bit code 4 (R72). -/
  | responseCodeNotImplemented
  /-- ResponseCode.Refused: the 4-bit code 5 (R72). -/
  | responseCodeRefused
  deriving DecidableEq, Repr

/-! ## Requests: how the host names an instruction. -/

/-- The wire format an element is presented in: the table's HDR96, LEN8, its four variable formats,
and its CODE16 and CODE4 codes, each of which belongs to one of two enumerations. The selector is the
model's own (log entry 3): the spec's decoders know the format from where they stand (R77). -/
inductive WireFormat where
  | hdr96 | len8 | label | name | question | message
  | rtype16 | rclass16 | opcode4 | rcode4
  deriving DecidableEq, Repr

/-- What selects an instruction: an operation by its 5-bit operation-select code (R80), or an element
of a wire format by its bytes, first byte on the wire first. A 4-bit code stands in the four most
significant bits of its byte (R154). -/
inductive Request where
  | op (opsel : BitVec 5)
  | wire (f : WireFormat) (bytes : List Byte)
  deriving DecidableEq, Repr

end Sys2Proof
end

