-- ==== Sys2Proof/Machine/State.lean ====
section
/-!
DEFINITION. The state of the machine, as plain data (spec/10_state.md). The block keeps nothing
between transactions (R21): what it holds is the records of the transaction last begun (R22 to R28).
Beside them stand the host's two ends of the transaction interface (R20, R83): the transactions it
has presented, and the results it has been given.
-/

namespace Sys2Proof.Machine

/-- The operands of a transaction (R83): one field for each operand that an operation of the table
takes (R78, R36). They are the host's values, copied; no instruction writes one (R29). -/
structure Operands where
  /-- `BUF`, the input buffer, first byte on the wire first; `LEN` is its length (R33). -/
  buf    : List Byte
  /-- `CUR`, the cursor on `BUF`, this block's program counter (R24). -/
  cur    : Cursor
  /-- `n`, the width of TAKE (R90). -/
  n      : Nat
  /-- `code : u16`, of RTYPE_DECODE and RCLASS_DECODE (R101, R104). -/
  code16 : U16
  /-- `code : u4`, of OPCODE_DECODE and RCODE_DECODE (R107, R110). -/
  code4  : U4
  /-- The RecordType variant of RTYPE_ENCODE and RTYPE_BITS; `t` of MSG_BUILD (R102, R103, R151). -/
  rtype  : RecordType
  /-- The RecordClass variant of RCLASS_ENCODE and RCLASS_BITS; `k` of MSG_BUILD (R105, R106, R151). -/
  rclass : RecordClass
  /-- The Opcode variant of OPCODE_ENCODE and OPCODE_BITS (R108, R109). -/
  opcode : Opcode
  /-- The ResponseCode variant of RCODE_ENCODE and RCODE_BITS (R111, R112). -/
  rcode  : ResponseCode
  /-- `id : u16`, of HDR_NEW and MSG_BUILD (R122, R151). -/
  id     : U16
  /-- `s`, the byte string of NAME_SPLIT and MSG_BUILD (R131, R151). -/
  str    : List Byte
  /-- `HDR`, the header record of HDR_ENCODE (R23, R124). -/
  hdr    : Header
  /-- `NAME`, the name of NAME_ENCODE; the labels read so far, for a length byte (R25, R132, R68). -/
  name   : Name
  /-- `Q`, the question record of Q_ENCODE (R26, R141). -/
  q      : Question
  /-- `MSG`, the message record of MSG_ENCODE (R27, R153). -/
  msg    : Message
  deriving DecidableEq, Repr

/-- One transaction as the host presents it: what is asked for, and its operands (R20, R83). -/
structure Transaction where
  request : Request
  args    : Operands
  deriving DecidableEq, Repr

/-- What a transaction returns when it succeeds (R36, column "builds and returns"). -/
inductive Result where
  /-- TAKE, TAKE_NIBBLE, TAKE_U16: the new cursor and an unsigned value. -/
  | read (cur : Cursor) (v : U16)
  /-- TAKE_BIT: the new cursor and a Boolean. -/
  | bit (cur : Cursor) (v : Bool)
  /-- RTYPE_DECODE; a RecordType code. -/
  | rtype (v : RecordType)
  /-- RCLASS_DECODE; a RecordClass code. -/
  | rclass (v : RecordClass)
  /-- OPCODE_DECODE; an Opcode code. -/
  | opcode (v : Opcode)
  /-- RCODE_DECODE; a ResponseCode code. -/
  | rcode (v : ResponseCode)
  /-- RTYPE_ENCODE, RCLASS_ENCODE. -/
  | code16 (v : U16)
  /-- OPCODE_ENCODE, RCODE_ENCODE. -/
  | code4 (v : U4)
  /-- The encoders of bits: the output bit sequence `OUT`, first bit on the wire first. -/
  | bits (out : List Bool)
  /-- HDR_NEW; a HEADER element. -/
  | hdr (h : Header)
  /-- HDR_DECODE. -/
  | hdrAt (h : Header) (cur : Cursor)
  /-- NAME_SPLIT; a NAME element. -/
  | name (n : Name)
  /-- NAME_DECODE. -/
  | nameAt (n : Name) (cur : Cursor)
  /-- A root or label length byte: the labels read so far, and the cursor behind them. -/
  | labelsAt (n : Name) (cur : Cursor)
  /-- A LABEL element. -/
  | label (l : Label)
  /-- A QUESTION element. -/
  | question (q : Question)
  /-- Q_DECODE. -/
  | questionAt (q : Question) (cur : Cursor)
  /-- MSG_BUILD, MSG_DECODE; a MESSAGE element. -/
  | msg (m : Message)
  /-- MSG_ENCODE. -/
  | bytes (b : List Byte)
  deriving DecidableEq, Repr

/-- The one answer of a transaction: `Ok(results)` or `Err(e)` (R20). -/
inductive Response where
  | ok (r : Result)
  | err (e : Err)
  deriving DecidableEq, Repr

/-- The reasons the machine stops with a fault: none. An error of the spec is a transaction's result,
after which the block is at once ready for the next one (spec/60_exceptions.md R170, R173), so raising
one is a next state. -/
inductive Fault where
  deriving DecidableEq, Repr

/-- The reasons a transaction is given no step. -/
inductive Refusal where
  /-- Raised by `exec` for an instruction that has no meaning yet. Safe. -/
  | notModelled (mnemonic : String)
  /-- Raised by `step` for an OPSEL value that names no operation (spec/30_encoding.md R81). Safe. -/
  | unknownOpsel
  /-- Raised by TAKE for a width outside 1 to 16 (spec/40_bitcursor.md R95 (a)). Safe. -/
  | widthOutOfContract
  /-- Raised by every instruction that takes a cursor, for a cursor that is not well-formed for its
  buffer (spec/40_bitcursor.md R95 (b)). Safe. -/
  | illFormedCursor
  deriving DecidableEq, Repr

/-- The machine. -/
structure State where
  /-- The transactions the host has presented and the block has not yet begun, oldest first (R194). -/
  pending : List Transaction
  /-- The operands of the transaction last begun (R22 to R27). -/
  args    : Operands
  /-- `OUT`, the output bit sequence of that transaction (R28). -/
  out     : List Bool
  /-- The results delivered to the host, oldest first: one for each transaction answered (R20, R194). -/
  results : List Response
  deriving DecidableEq, Repr

/-- The header every field of which is its first value; no rule names it (log entry 2). -/
def blankHeader : Header where
  id := 0
  qr := .Query
  opcode := .Query
  aa := false
  tc := false
  rd := false
  ra := false
  rcode := .NoError
  qdcount := 0
  ancount := 0
  nscount := 0
  arcount := 0

/-- The operand records while no transaction has begun. The spec says they do not exist then
(R35), so these values are the model's: DESIGN CHOICE, log entry 2. No step reads them. -/
def Operands.initial : Operands where
  buf := []
  cur := ⟨0, 0⟩
  n := 1
  code16 := 0
  code4 := 0
  rtype := .A
  rclass := .IN
  opcode := .Query
  rcode := .NoError
  id := 0
  str := []
  hdr := blankHeader
  name := []
  q := ⟨[], .A, .IN⟩
  msg := ⟨blankHeader, []⟩

/-- Right after reset: idle, no transaction in progress, no result (R35, R190). -/
def State.reset : State where
  pending := []
  args := Operands.initial
  out := []
  results := []

end Sys2Proof.Machine
end

