-- ==== Sys2Proof/Machine/Bits.lean ====
section
/-!
DEFINITION. The pseudocode primitives of spec/00_scope.md R15: reading a bit field of a byte buffer,
emitting one to an output bit sequence, packing the output into bytes, and the cursor's position.
Big-endian and most significant bit first everywhere (spec/20_memory.md R40): this file decides it once.
-/

namespace Sys2Proof.Machine

/-- Stream bit `k` of a buffer: bit `7 - (k mod 8)` of byte `k div 8` (R13). Past the end no rule
reads one; the value there is never used (every read checks the end first, R90). -/
def streamBit (buf : List Byte) (k : Nat) : Bool :=
  (buf[k / 8]?.getD 0).getMsbD (k % 8)

/-- `MemRead(pos, n)`: the sum over `k < n` of `streambit(pos + k) * 2^(n-1-k)` (R15). -/
def memRead (buf : List Byte) (pos n : Nat) : Nat :=
  ((List.range n).map fun k => (streamBit buf (pos + k)).toNat * 2 ^ (n - 1 - k)).sum

/-- `bitsN(v)`: the `N` bits of `v`, most significant first (R15). -/
def bitsN {n : Nat} (v : BitVec n) : List Bool :=
  (List.range n).map v.getMsbD

/-- `emit(OUT, n, v)`, also `MemWrite`: append the bits of `v`, most significant first (R15, R45). -/
def emit (out : List Bool) {n : Nat} (v : BitVec n) : List Bool :=
  out ++ bitsN v

/-- A Boolean as one bit: 1 for true (R14, R67). -/
def boolBit (b : Bool) : BitVec 1 :=
  if b then 1 else 0

/-- Byte `j` of `PACK(S)`: its bit `7 - i` is `S[8j + i]`, and 0 past the end of `S` (R154). -/
def packByte (s : List Bool) (j : Nat) : Byte :=
  BitVec.ofNat 8 ((List.range 8).map fun i => (s.getD (8 * j + i) false).toNat * 2 ^ (7 - i)).sum

/-- `PACK(S)`: `ceil(m / 8)` bytes, the first bit of `S` the most significant of the first (R154). -/
def pack (s : List Bool) : List Byte :=
  (List.range ((s.length + 7) / 8)).map (packByte s)

end Sys2Proof.Machine

namespace Sys2Proof

/-- `pos(CUR) = 8*BYTE + BIT` (R24). -/
def Cursor.pos (c : Cursor) : Nat :=
  8 * c.byte + c.bit

/-- The cursor at stream position `p`: `(p div 8, p mod 8)` (R90). -/
def Cursor.ofPos (p : Nat) : Cursor :=
  ⟨p / 8, p % 8⟩

/-- The origin `(0, 0)` (R24, R94). -/
def Cursor.origin : Cursor :=
  ⟨0, 0⟩

/-- A cursor is well-formed for its buffer: `BIT <= 7` and `pos(CUR) <= 8*LEN` (R24). -/
abbrev Cursor.WellFormed (c : Cursor) (buf : List Byte) : Prop :=
  c.bit ≤ 7 ∧ c.pos ≤ 8 * buf.length

end Sys2Proof
end

