-- ==== Sys2Proof/Machine/Ops.lean ====
section
/-!
DEFINITION. The operations every meaning is made of: beginning a transaction, delivering its result,
raising an error (the one form of exception the block has), and the two ways a transaction ends.
-/

namespace Sys2Proof.Machine

/-- What a meaning answers. -/
abbrev Step := Host.Outcome State Fault Refusal

/-- Begin the oldest pending transaction: its operands are copied in and `OUT` is empty (R35). -/
def State.begin (s : State) (t : Transaction) (rest : List Transaction) : State :=
  { s with pending := rest, args := t.args, out := [] }

/-- Deliver a transaction's one result to the host (R20). -/
def State.deliver (s : State) (r : Response) : State :=
  { s with results := s.results ++ [r] }

/-- `raise E`: the transaction ends with `Err(E)`, and that is all. Nothing is saved, no mode changes,
no control goes anywhere, and no partial result is delivered (spec/60_exceptions.md R170). The block
has no return from it to model: it is at once ready for the next transaction (R173). -/
def State.raise (s : State) (e : Err) : State :=
  s.deliver (.err e)

/-- `OUT <- bits`, the output of an encoding transaction (R28). -/
def State.setOut (s : State) (bits : List Bool) : State :=
  { s with out := bits }

/-- End a transaction: `return v` delivers `Ok(v)`, `raise e` delivers `Err(e)` (R15). -/
def State.conclude (s : State) : Except Err Result → Step
  | .ok v => .next (s.deliver (.ok v))
  | .error e => .next (s.raise e)

/-- End an encoding transaction: on success `OUT` holds the bits and `result` of them is delivered;
on an error no bit is (R28, R45). -/
def State.concludeOut (s : State) (result : List Bool → Result) : Except Err (List Bool) → Step
  | .ok bits => .next ((s.setOut bits).deliver (.ok (result bits)))
  | .error e => .next (s.raise e)

end Sys2Proof.Machine
end

