-- ==== Sys2Proof/Machine/Enumerations.lean ====
section
/-!
DEFINITION. The four closed enumerations (spec/41_enumerations.md). One table each, the wire code of
every variant (spec/30_encoding.md R69 to R72); `*_DECODE` searches it and `*_BITS` is read off it,
so nothing is kept twice (R100).
-/

namespace Sys2Proof.Machine

/-! ## RecordType -/

/-- RTYPE_ENCODE: the wire code of a variant, the table of R69 (R102). -/
def rtypeEncode : RecordType → U16
  | .A => 1
  | .NS => 2
  | .MD => 3
  | .MF => 4
  | .CNAME => 5
  | .SOA => 6
  | .MB => 7
  | .MG => 8
  | .MR => 9
  | .NULL => 10
  | .WKS => 11
  | .PTR => 12
  | .HINFO => 13
  | .MINFO => 14
  | .MX => 15
  | .TXT => 16
  | .AAAA => 28

/-- The variants, in the order of their codes (R69). -/
def rtypeVariants : List RecordType :=
  [.A, .NS, .MD, .MF, .CNAME, .SOA, .MB, .MG, .MR, .NULL, .WKS, .PTR,
   .HINFO, .MINFO, .MX, .TXT, .AAAA]

/-- RTYPE_DECODE: the variant with that code; `UnsupportedCode` for a code outside the table, never a
default variant (R101, R74). -/
def rtypeDecode (code : U16) : Except Err RecordType :=
  match rtypeVariants.find? fun v => rtypeEncode v == code with
  | some v => .ok v
  | none => .error .UnsupportedCode

/-- RTYPE_BITS: the 16 bits of the code, most significant first (R103). -/
def rtypeBits (v : RecordType) : List Bool :=
  bitsN (rtypeEncode v)

/-! ## RecordClass -/

/-- RCLASS_ENCODE: the wire code of a variant, the table of R70 (R105). -/
def rclassEncode : RecordClass → U16
  | .IN => 1
  | .CS => 2
  | .CH => 3
  | .HS => 4

/-- The variants, in the order of their codes (R70). -/
def rclassVariants : List RecordClass :=
  [.IN, .CS, .CH, .HS]

/-- RCLASS_DECODE: the variant with that code; `UnsupportedCode` for a code outside the table, never a
default variant (R104, R74). -/
def rclassDecode (code : U16) : Except Err RecordClass :=
  match rclassVariants.find? fun v => rclassEncode v == code with
  | some v => .ok v
  | none => .error .UnsupportedCode

/-- RCLASS_BITS: the 16 bits of the code, most significant first (R106). -/
def rclassBits (v : RecordClass) : List Bool :=
  bitsN (rclassEncode v)

/-! ## Opcode -/

/-- OPCODE_ENCODE: the wire code of a variant, the table of R71 (R108). -/
def opcodeEncode : Opcode → U4
  | .Query => 0
  | .InverseQuery => 1
  | .Status => 2

/-- The variants, in the order of their codes (R71). -/
def opcodeVariants : List Opcode :=
  [.Query, .InverseQuery, .Status]

/-- OPCODE_DECODE: the variant with that code; `UnsupportedCode` for a code outside the table, never a
default variant (R107, R74). -/
def opcodeDecode (code : U4) : Except Err Opcode :=
  match opcodeVariants.find? fun v => opcodeEncode v == code with
  | some v => .ok v
  | none => .error .UnsupportedCode

/-- OPCODE_BITS: the 4 bits of the code, most significant first (R109). -/
def opcodeBits (v : Opcode) : List Bool :=
  bitsN (opcodeEncode v)

/-! ## ResponseCode -/

/-- RCODE_ENCODE: the wire code of a variant, the table of R72 (R111). -/
def rcodeEncode : ResponseCode → U4
  | .NoError => 0
  | .FormatError => 1
  | .ServerFailure => 2
  | .NameError => 3
  | .NotImplemented => 4
  | .Refused => 5

/-- The variants, in the order of their codes (R72). -/
def rcodeVariants : List ResponseCode :=
  [.NoError, .FormatError, .ServerFailure, .NameError, .NotImplemented, .Refused]

/-- RCODE_DECODE: the variant with that code; `UnsupportedCode` for a code outside the table, never a
default variant (R110, R74). -/
def rcodeDecode (code : U4) : Except Err ResponseCode :=
  match rcodeVariants.find? fun v => rcodeEncode v == code with
  | some v => .ok v
  | none => .error .UnsupportedCode

/-- RCODE_BITS: the 4 bits of the code, most significant first (R112). -/
def rcodeBits (v : ResponseCode) : List Bool :=
  bitsN (rcodeEncode v)

/-! ## The operations as transactions -/

/-- RTYPE_DECODE as a transaction (R101). -/
def execRtypeDecode (s : State) : Step :=
  s.conclude do
    let v ← rtypeDecode s.args.code16
    return .rtype v

/-- RTYPE_ENCODE as a transaction: total (R102). -/
def execRtypeEncode (s : State) : Step :=
  s.conclude (.ok (.code16 (rtypeEncode s.args.rtype)))

/-- RTYPE_BITS as a transaction: total (R103). -/
def execRtypeBits (s : State) : Step :=
  s.concludeOut .bits (.ok (rtypeBits s.args.rtype))

/-- RCLASS_DECODE as a transaction (R104). -/
def execRclassDecode (s : State) : Step :=
  s.conclude do
    let v ← rclassDecode s.args.code16
    return .rclass v

/-- RCLASS_ENCODE as a transaction: total (R105). -/
def execRclassEncode (s : State) : Step :=
  s.conclude (.ok (.code16 (rclassEncode s.args.rclass)))

/-- RCLASS_BITS as a transaction: total (R106). -/
def execRclassBits (s : State) : Step :=
  s.concludeOut .bits (.ok (rclassBits s.args.rclass))

/-- OPCODE_DECODE as a transaction (R107). -/
def execOpcodeDecode (s : State) : Step :=
  s.conclude do
    let v ← opcodeDecode s.args.code4
    return .opcode v

/-- OPCODE_ENCODE as a transaction: total (R108). -/
def execOpcodeEncode (s : State) : Step :=
  s.conclude (.ok (.code4 (opcodeEncode s.args.opcode)))

/-- OPCODE_BITS as a transaction: total (R109). -/
def execOpcodeBits (s : State) : Step :=
  s.concludeOut .bits (.ok (opcodeBits s.args.opcode))

/-- RCODE_DECODE as a transaction (R110). -/
def execRcodeDecode (s : State) : Step :=
  s.conclude do
    let v ← rcodeDecode s.args.code4
    return .rcode v

/-- RCODE_ENCODE as a transaction: total (R111). -/
def execRcodeEncode (s : State) : Step :=
  s.conclude (.ok (.code4 (rcodeEncode s.args.rcode)))

/-- RCODE_BITS as a transaction: total (R112). -/
def execRcodeBits (s : State) : Step :=
  s.concludeOut .bits (.ok (rcodeBits s.args.rcode))

end Sys2Proof.Machine
end

