-- ==== Sys2Proof/Machine/Codes.lean ====
section
/-!
DEFINITION. The meanings of the code rows of the opcode table: presenting a wire code of an enumeration
delivers the variant that code stands for (spec/30_encoding.md R69 to R72). Which code that is stands
in the decoder and in the enumeration's table; a code with no row is `UnsupportedCode` (R74).
-/

namespace Sys2Proof.Machine

/-- RecordType.A (R69). -/
def execRecordTypeA (s : State) : Step :=
  s.conclude (.ok (.rtype .A))

/-- RecordType.NS (R69). -/
def execRecordTypeNS (s : State) : Step :=
  s.conclude (.ok (.rtype .NS))

/-- RecordType.MD (R69). -/
def execRecordTypeMD (s : State) : Step :=
  s.conclude (.ok (.rtype .MD))

/-- RecordType.MF (R69). -/
def execRecordTypeMF (s : State) : Step :=
  s.conclude (.ok (.rtype .MF))

/-- RecordType.CNAME (R69). -/
def execRecordTypeCNAME (s : State) : Step :=
  s.conclude (.ok (.rtype .CNAME))

/-- RecordType.SOA (R69). -/
def execRecordTypeSOA (s : State) : Step :=
  s.conclude (.ok (.rtype .SOA))

/-- RecordType.MB (R69). -/
def execRecordTypeMB (s : State) : Step :=
  s.conclude (.ok (.rtype .MB))

/-- RecordType.MG (R69). -/
def execRecordTypeMG (s : State) : Step :=
  s.conclude (.ok (.rtype .MG))

/-- RecordType.MR (R69). -/
def execRecordTypeMR (s : State) : Step :=
  s.conclude (.ok (.rtype .MR))

/-- RecordType.NULL (R69). -/
def execRecordTypeNULL (s : State) : Step :=
  s.conclude (.ok (.rtype .NULL))

/-- RecordType.WKS (R69). -/
def execRecordTypeWKS (s : State) : Step :=
  s.conclude (.ok (.rtype .WKS))

/-- RecordType.PTR (R69). -/
def execRecordTypePTR (s : State) : Step :=
  s.conclude (.ok (.rtype .PTR))

/-- RecordType.HINFO (R69). -/
def execRecordTypeHINFO (s : State) : Step :=
  s.conclude (.ok (.rtype .HINFO))

/-- RecordType.MINFO (R69). -/
def execRecordTypeMINFO (s : State) : Step :=
  s.conclude (.ok (.rtype .MINFO))

/-- RecordType.MX (R69). -/
def execRecordTypeMX (s : State) : Step :=
  s.conclude (.ok (.rtype .MX))

/-- RecordType.TXT (R69). -/
def execRecordTypeTXT (s : State) : Step :=
  s.conclude (.ok (.rtype .TXT))

/-- RecordType.AAAA (R69). -/
def execRecordTypeAAAA (s : State) : Step :=
  s.conclude (.ok (.rtype .AAAA))

/-- RecordClass.IN (R70). -/
def execRecordClassIN (s : State) : Step :=
  s.conclude (.ok (.rclass .IN))

/-- RecordClass.CS (R70). -/
def execRecordClassCS (s : State) : Step :=
  s.conclude (.ok (.rclass .CS))

/-- RecordClass.CH (R70). -/
def execRecordClassCH (s : State) : Step :=
  s.conclude (.ok (.rclass .CH))

/-- RecordClass.HS (R70). -/
def execRecordClassHS (s : State) : Step :=
  s.conclude (.ok (.rclass .HS))

/-- Opcode.Query (R71). -/
def execOpcodeQuery (s : State) : Step :=
  s.conclude (.ok (.opcode .Query))

/-- Opcode.InverseQuery (R71). -/
def execOpcodeInverseQuery (s : State) : Step :=
  s.conclude (.ok (.opcode .InverseQuery))

/-- Opcode.Status (R71). -/
def execOpcodeStatus (s : State) : Step :=
  s.conclude (.ok (.opcode .Status))

/-- ResponseCode.NoError (R72). -/
def execResponseCodeNoError (s : State) : Step :=
  s.conclude (.ok (.rcode .NoError))

/-- ResponseCode.FormatError (R72). -/
def execResponseCodeFormatError (s : State) : Step :=
  s.conclude (.ok (.rcode .FormatError))

/-- ResponseCode.ServerFailure (R72). -/
def execResponseCodeServerFailure (s : State) : Step :=
  s.conclude (.ok (.rcode .ServerFailure))

/-- ResponseCode.NameError (R72). -/
def execResponseCodeNameError (s : State) : Step :=
  s.conclude (.ok (.rcode .NameError))

/-- ResponseCode.NotImplemented (R72). -/
def execResponseCodeNotImplemented (s : State) : Step :=
  s.conclude (.ok (.rcode .NotImplemented))

/-- ResponseCode.Refused (R72). -/
def execResponseCodeRefused (s : State) : Step :=
  s.conclude (.ok (.rcode .Refused))

end Sys2Proof.Machine
end

