-- ==== Sys2Proof/Machine/Operands.lean ====
section
/-!
DEFINITION. The operand checks of spec/60_exceptions.md R175: what is outside every operation's contract
is refused, and is not one of the errors. The operand itself is read where it stands, in the
transaction's records; there is one addressing mode, the cursor (spec/40_bitcursor.md R97).
-/

namespace Sys2Proof.Machine

/-- Run `k` on a cursor that is well-formed for its buffer; any other cursor is refused (R95 (b)). -/
def State.withCursor (s : State) (k : Step) : Step :=
  if s.args.cur.WellFormed s.args.buf then k else .refused .illFormedCursor

/-- Run `k` on a width of 1 to 16; any other width is refused (R95 (a)). -/
def State.withWidth (s : State) (k : Step) : Step :=
  if Config.takeMin ≤ s.args.n ∧ s.args.n ≤ Config.takeMax then k else .refused .widthOutOfContract

end Sys2Proof.Machine
end

