-- ==== Sys2Proof/Machine/BitCursor.lean ====
section
/-!
DEFINITION. BitCursor (spec/40_bitcursor.md): the one load of the block, TAKE, the three reads derived
from it, and their meanings as transactions.
-/

namespace Sys2Proof.Machine

/-- TAKE (R90): the next `n` bits as an unsigned value, and the cursor `n` bits further on; `Underrun`
when fewer than `n` bits remain. -/
def take (buf : List Byte) (c : Cursor) (n : Nat) : Except Err (Cursor × Nat) :=
  if 8 * buf.length - c.pos < n then .error .Underrun
  else .ok (Cursor.ofPos (c.pos + n), memRead buf c.pos n)

/-- TAKE_BIT (R91). -/
def takeBit (buf : List Byte) (c : Cursor) : Except Err (Cursor × Bool) := do
  let (c, v) ← take buf c 1
  return (c, v == 1)

/-- TAKE_NIBBLE (R92). -/
def takeNibble (buf : List Byte) (c : Cursor) : Except Err (Cursor × U4) := do
  let (c, v) ← take buf c 4
  return (c, BitVec.ofNat 4 v)

/-- TAKE_U16 (R93). -/
def takeU16 (buf : List Byte) (c : Cursor) : Except Err (Cursor × U16) := do
  let (c, v) ← take buf c 16
  return (c, BitVec.ofNat 16 v)

/-- TAKE of 8 bits: a length byte or a label byte (R43). -/
def takeByte (buf : List Byte) (c : Cursor) : Except Err (Cursor × Byte) := do
  let (c, v) ← take buf c 8
  return (c, BitVec.ofNat 8 v)

/-- TAKE as a transaction (R90, R95). -/
def execTake (s : State) : Step :=
  s.withWidth <| s.withCursor <| s.conclude do
    let (c, v) ← take s.args.buf s.args.cur s.args.n
    return .read c (BitVec.ofNat 16 v)

/-- TAKE_BIT as a transaction (R91). -/
def execTakeBit (s : State) : Step :=
  s.withCursor <| s.conclude do
    let (c, b) ← takeBit s.args.buf s.args.cur
    return .bit c b

/-- TAKE_NIBBLE as a transaction (R92). -/
def execTakeNibble (s : State) : Step :=
  s.withCursor <| s.conclude do
    let (c, v) ← takeNibble s.args.buf s.args.cur
    return .read c (v.setWidth 16)

/-- TAKE_U16 as a transaction (R93). -/
def execTakeU16 (s : State) : Step :=
  s.withCursor <| s.conclude do
    let (c, v) ← takeU16 s.args.buf s.args.cur
    return .read c v

end Sys2Proof.Machine
end

