-- ==== Sys2Proof/Machine/MessageHeader.lean ====
section
/-!
DEFINITION. MessageHeader (spec/42_header.md): the constructor, the packer and the unpacker of the
96-bit header (spec/30_encoding.md R61).
-/

namespace Sys2Proof.Machine

/-- The QR bit: `Query` is 0, `Response` is 1 (R121). -/
def qrBit : QR → BitVec 1
  | .Query => 0
  | .Response => 1

/-- The QR tag of a bit read as a Boolean (R121, R125). -/
def qrOfBit (b : Bool) : QR :=
  if b then .Response else .Query

/-- HDR_NEW: the query-side default header (R122). -/
def hdrNew (id : U16) : Header where
  id := id
  qr := .Query
  opcode := .Query
  aa := false
  tc := false
  rd := true
  ra := false
  rcode := .NoError
  qdcount := 1
  ancount := 0
  nscount := 0
  arcount := 0

/-- HDR_ENCODE, the packer: the thirteen fields in wire order, Z always `000` (R124, R123). -/
def hdrEncode (h : Header) : List Bool :=
  let out := emit [] h.id
  let out := emit out (qrBit h.qr)
  let out := emit out (opcodeEncode h.opcode)
  let out := emit out (boolBit h.aa)
  let out := emit out (boolBit h.tc)
  let out := emit out (boolBit h.rd)
  let out := emit out (boolBit h.ra)
  let out := emit out (0 : BitVec 3)
  let out := emit out (rcodeEncode h.rcode)
  let out := emit out h.qdcount
  let out := emit out h.ancount
  let out := emit out h.nscount
  emit out h.arcount

/-- HDR_DECODE, the unpacker. The checks come in the order `Truncated`, `MalformedReserved`,
`UnsupportedCode` of the opcode, `UnsupportedCode` of the response code (R125, R171). -/
def hdrDecode (buf : List Byte) (c : Cursor) : Except Err (Header × Cursor) := do
  if 8 * buf.length - c.pos < Config.hdrBits then throw .Truncated
  let (c, id) ← takeU16 buf c
  let (c, qr) ← takeBit buf c
  let (c, op) ← takeNibble buf c
  let (c, aa) ← takeBit buf c
  let (c, tc) ← takeBit buf c
  let (c, rd) ← takeBit buf c
  let (c, ra) ← takeBit buf c
  let (c, z) ← take buf c 3
  let (c, rc) ← takeNibble buf c
  let (c, qd) ← takeU16 buf c
  let (c, an) ← takeU16 buf c
  let (c, ns) ← takeU16 buf c
  let (c, ar) ← takeU16 buf c
  if z ≠ 0 then throw .MalformedReserved
  let opcode ← opcodeDecode op
  let rcode ← rcodeDecode rc
  return ({ id := id, qr := qrOfBit qr, opcode := opcode, aa := aa, tc := tc, rd := rd, ra := ra,
            rcode := rcode, qdcount := qd, ancount := an, nscount := ns, arcount := ar }, c)

/-- HDR_NEW as a transaction: no failure (R122). -/
def execHdrNew (s : State) : Step :=
  s.conclude (.ok (.hdr (hdrNew s.args.id)))

/-- HDR_ENCODE as a transaction: no failure (R124). -/
def execHdrEncode (s : State) : Step :=
  s.concludeOut .bits (.ok (hdrEncode s.args.hdr))

/-- HDR_DECODE as a transaction (R125). -/
def execHdrDecode (s : State) : Step :=
  s.withCursor <| s.conclude do
    let (h, c) ← hdrDecode s.args.buf s.args.cur
    return .hdrAt h c

end Sys2Proof.Machine
end

