-- ==== Sys2Proof/Machine/DomainName.lean ====
section
/-!
DEFINITION. The DomainName label codec (spec/43_name.md): splitting a string at its dots, encoding
labels with their length bytes and the root label, and decoding them.
-/

namespace Sys2Proof.Machine

/-- `enc_len(name)`: one byte for the root and, for each label, one length byte and its bytes (R25). -/
def encLen (name : Name) : Nat :=
  1 + (name.map fun l => 1 + l.length).sum

/-- The parts of a string between its dots, `part` the bytes read since the last dot (R131). -/
def splitParts : List Byte → Label → Name
  | [], part => [part]
  | b :: bs, part => if b = 0x2E then part :: splitParts bs [] else splitParts bs (part ++ [b])

/-- NAME_SPLIT: the empty string is the root name; any other string splits at every dot (R131). -/
def nameSplit (s : List Byte) : Name :=
  if s.length = 0 then [] else splitParts s []

/-- Emit the bytes of a label, unchanged (R132 (d), R136). -/
def emitBytes (out : List Bool) (l : Label) : List Bool :=
  l.foldl (fun out b => emit out b) out

/-- Emit the labels of a name in order, each behind its length byte, then the root label; the first
label with 64 bytes or more, or with none, ends it with its error (R132). -/
def emitLabels (out : List Bool) : Name → Except Err (List Bool)
  | [] => .ok (emit out (0 : Byte))
  | l :: ls =>
    if 64 ≤ l.length then .error .LabelTooLong
    else if l.length = 0 then .error .EmptyLabel
    else emitLabels (emitBytes (emit out (BitVec.ofNat 8 l.length)) l) ls

/-- NAME_ENCODE, the label encoder (R132). It does not check the 255-byte limit (R133). -/
def nameEncode (name : Name) : Except Err (List Bool) :=
  emitLabels [] name

/-- Read `k` bytes as one label (R134). -/
def readLabel (buf : List Byte) : Nat → Cursor → Except Err (Label × Cursor)
  | 0, c => .ok ([], c)
  | k + 1, c => do
    let (c, b) ← takeByte buf c
    let (l, c) ← readLabel buf k c
    return (b :: l, c)

/-- The loop of NAME_DECODE (R134). Every turn consumes at least 8 bits, so a count of turns above
the bytes that remain is never used up (R202). -/
def readLabels (buf : List Byte) : Nat → Name → Cursor → Except Err (Name × Cursor)
  | 0, _, _ => .error .Underrun
  | turns + 1, labels, c => do
    let (c, len) ← takeByte buf c
    if len.toNat = 0 then return (labels, c)
    if 64 ≤ len.toNat then throw .CompressionUnsupported
    let (label, c) ← readLabel buf len.toNat c
    readLabels buf turns (labels ++ [label]) c

/-- NAME_DECODE, the label decoder (R134). -/
def nameDecode (buf : List Byte) (c : Cursor) : Except Err (Name × Cursor) :=
  readLabels buf (buf.length + 1) [] c

/-- NAME_SPLIT as a transaction: no failure (R131). -/
def execNameSplit (s : State) : Step :=
  s.conclude (.ok (.name (nameSplit s.args.str)))

/-- NAME_ENCODE as a transaction (R132). -/
def execNameEncode (s : State) : Step :=
  s.concludeOut .bits (nameEncode s.args.name)

/-- NAME_DECODE as a transaction (R134). -/
def execNameDecode (s : State) : Step :=
  s.withCursor <| s.conclude do
    let (n, c) ← nameDecode s.args.buf s.args.cur
    return .nameAt n c

end Sys2Proof.Machine
end

