-- ==== Sys2Proof/Machine/Question.lean ====
section
/-!
DEFINITION. Question (spec/44_question.md): the encoder and the decoder of a name, a type and a class.
-/

namespace Sys2Proof.Machine

/-- Q_ENCODE: the name, then the 16 bits of the type, then the 16 bits of the class (R141). -/
def qEncode (q : Question) : Except Err (List Bool) := do
  let out ← nameEncode q.name
  let out := out ++ rtypeBits q.qtype
  let out := out ++ rclassBits q.qclass
  return out

/-- Q_DECODE: strictly in sequence, so the type is checked before the class is read (R142). -/
def qDecode (buf : List Byte) (c : Cursor) : Except Err (Question × Cursor) := do
  let (name, c) ← nameDecode buf c
  let (c, t) ← takeU16 buf c
  let qtype ← rtypeDecode t
  let (c, k) ← takeU16 buf c
  let qclass ← rclassDecode k
  return ({ name := name, qtype := qtype, qclass := qclass }, c)

/-- Q_ENCODE as a transaction (R141). -/
def execQEncode (s : State) : Step :=
  s.concludeOut .bits (qEncode s.args.q)

/-- Q_DECODE as a transaction (R142). -/
def execQDecode (s : State) : Step :=
  s.withCursor <| s.conclude do
    let (q, c) ← qDecode s.args.buf s.args.cur
    return .questionAt q c

end Sys2Proof.Machine
end

