-- ==== Sys2Proof/Machine/Message.lean ====
section
/-!
DEFINITION. Message (spec/45_message.md): the block's public surface, building, encoding and decoding a
header with its questions.
-/

namespace Sys2Proof.Machine

/-- Check 2 of MSG_BUILD: the labels in order; the first with more than 63 bytes, or with none,
decides the error (R151). -/
def checkLabels : Name → Except Err Unit
  | [] => .ok ()
  | l :: ls =>
    if Config.labelMax < l.length then .error .LabelTooLong
    else if l.length = 0 then .error .EmptyLabel
    else checkLabels ls

/-- MSG_BUILD: the total length first, then the labels, then a default query header and one question
(R151). -/
def msgBuild (id : U16) (s : List Byte) (t : RecordType) (k : RecordClass) : Except Err Message := do
  let name := nameSplit s
  if Config.nameMax < encLen name then throw .NameTooLong
  checkLabels name
  return { hdr := hdrNew id, qs := [{ name := name, qtype := t, qclass := k }] }

/-- Append the bits of each question, in order (R153). -/
def emitQuestions (out : List Bool) : List Question → Except Err (List Bool)
  | [] => .ok out
  | q :: qs => do
    let bits ← qEncode q
    emitQuestions (out ++ bits) qs

/-- The bits MSG_ENCODE packs: the header as the record holds it, then the questions (R153). -/
def msgBits (m : Message) : Except Err (List Bool) :=
  emitQuestions (hdrEncode m.hdr) m.qs

/-- MSG_ENCODE (R153). -/
def msgEncode (m : Message) : Except Err (List Byte) := do
  let out ← msgBits m
  return pack out

/-- Decode `k` questions one behind the other (R155). -/
def readQuestions (buf : List Byte) : Nat → Cursor → Except Err (List Question)
  | 0, _ => .ok []
  | k + 1, c => do
    let (q, c) ← qDecode buf c
    let qs ← readQuestions buf k c
    return q :: qs

/-- MSG_DECODE: the header at the origin, then exactly QDCOUNT questions; what follows is not read
(R155). -/
def msgDecode (bytes : List Byte) : Except Err Message := do
  let (h, c) ← hdrDecode bytes Cursor.origin
  let qs ← readQuestions bytes h.qdcount.toNat c
  return { hdr := h, qs := qs }

/-- MSG_BUILD as a transaction (R151). -/
def execMsgBuild (s : State) : Step :=
  s.conclude do
    let m ← msgBuild s.args.id s.args.str s.args.rtype s.args.rclass
    return .msg m

/-- MSG_ENCODE as a transaction: `OUT` holds the bits, the bytes are delivered (R153, R28). -/
def execMsgEncode (s : State) : Step :=
  s.concludeOut (fun out => .bytes (pack out)) (msgBits s.args.msg)

/-- MSG_DECODE as a transaction (R155). -/
def execMsgDecode (s : State) : Step :=
  s.conclude do
    let m ← msgDecode s.args.buf
    return .msg m

end Sys2Proof.Machine
end

