-- ==== Sys2Proof/Machine/WireFormats.lean ====
section
/-!
DEFINITION. The meanings of the wire-format rows of the opcode table (spec/30_encoding.md R61 to R68).
Presenting an element of a wire format has the block unpack that element alone: the decoder has read
the element's fields (Sys2Proof/Decode.lean), and the record they stand for is delivered. A length
byte is met in the middle of a name, so its meaning is the decoder action of R68, on the labels read
so far (`NAME`) and the cursor behind the byte (`CUR` on `BUF`). See log entry 3.
-/

namespace Sys2Proof.Machine

/-- HEADER: the header record (R61, R125). -/
def execHeader (h : Header) (s : State) : Step :=
  s.conclude (.ok (.hdr h))

/-- LENGTH_BYTE.ROOT: the name is complete; return the labels read so far (R68). -/
def execLengthByteRoot (s : State) : Step :=
  s.withCursor <| s.conclude (.ok (.labelsAt s.args.name s.args.cur))

/-- LENGTH_BYTE.LABEL: read that many bytes as one label, and continue behind it (R68). -/
def execLengthByteLabel (len : U6) (s : State) : Step :=
  s.withCursor <| s.conclude do
    let (l, c) ← readLabel s.args.buf len.toNat s.args.cur
    return .labelsAt (s.args.name ++ [l]) c

/-- LENGTH_BYTE.RESERVED_01: fail with `CompressionUnsupported` (R68, R75). -/
def execLengthByteReserved01 (_x : U6) (s : State) : Step :=
  s.conclude (.error .CompressionUnsupported)

/-- LENGTH_BYTE.RESERVED_10: fail with `CompressionUnsupported` (R68, R75). -/
def execLengthByteReserved10 (_x : U6) (s : State) : Step :=
  s.conclude (.error .CompressionUnsupported)

/-- LENGTH_BYTE.RESERVED_11: fail with `CompressionUnsupported` (R68, R75). -/
def execLengthByteReserved11 (_x : U6) (s : State) : Step :=
  s.conclude (.error .CompressionUnsupported)

/-- LABEL: one label (R63). -/
def execLabel (l : Label) (s : State) : Step :=
  s.conclude (.ok (.label l))

/-- NAME: the name, its root label read and dropped (R64, R134). -/
def execName (n : Name) (s : State) : Step :=
  s.conclude (.ok (.name n))

/-- QUESTION: the question record (R65, R142). -/
def execQuestion (q : Question) (s : State) : Step :=
  s.conclude (.ok (.question q))

/-- MESSAGE: the message record (R66, R155). -/
def execMessage (m : Message) (s : State) : Step :=
  s.conclude (.ok (.msg m))

end Sys2Proof.Machine
end

