-- ==== Sys2Proof/Machine/Dispatch.lean ====
section
/-! DEFINITION. The meaning of every instruction: one arm for each row of spec/opcode_table.json. -/

namespace Sys2Proof.Machine

/-- Run one instruction in the transaction whose operands `s` holds. -/
def exec (i : Instr) (s : State) : Host.Outcome State Fault Refusal :=
  match i with
  | .take => Sys2Proof.Machine.execTake s
  | .takeBit => Sys2Proof.Machine.execTakeBit s
  | .takeNibble => Sys2Proof.Machine.execTakeNibble s
  | .takeU16 => Sys2Proof.Machine.execTakeU16 s
  | .rtypeDecode => Sys2Proof.Machine.execRtypeDecode s
  | .rtypeEncode => Sys2Proof.Machine.execRtypeEncode s
  | .rtypeBits => Sys2Proof.Machine.execRtypeBits s
  | .rclassDecode => Sys2Proof.Machine.execRclassDecode s
  | .rclassEncode => Sys2Proof.Machine.execRclassEncode s
  | .rclassBits => Sys2Proof.Machine.execRclassBits s
  | .opcodeDecode => Sys2Proof.Machine.execOpcodeDecode s
  | .opcodeEncode => Sys2Proof.Machine.execOpcodeEncode s
  | .opcodeBits => Sys2Proof.Machine.execOpcodeBits s
  | .rcodeDecode => Sys2Proof.Machine.execRcodeDecode s
  | .rcodeEncode => Sys2Proof.Machine.execRcodeEncode s
  | .rcodeBits => Sys2Proof.Machine.execRcodeBits s
  | .hdrNew => Sys2Proof.Machine.execHdrNew s
  | .hdrEncode => Sys2Proof.Machine.execHdrEncode s
  | .hdrDecode => Sys2Proof.Machine.execHdrDecode s
  | .nameSplit => Sys2Proof.Machine.execNameSplit s
  | .nameEncode => Sys2Proof.Machine.execNameEncode s
  | .nameDecode => Sys2Proof.Machine.execNameDecode s
  | .qEncode => Sys2Proof.Machine.execQEncode s
  | .qDecode => Sys2Proof.Machine.execQDecode s
  | .msgBuild => Sys2Proof.Machine.execMsgBuild s
  | .msgEncode => Sys2Proof.Machine.execMsgEncode s
  | .msgDecode => Sys2Proof.Machine.execMsgDecode s
  | .header h => Sys2Proof.Machine.execHeader h s
  | .lengthByteRoot => Sys2Proof.Machine.execLengthByteRoot s
  | .lengthByteLabel len => Sys2Proof.Machine.execLengthByteLabel len s
  | .lengthByteReserved01 x => Sys2Proof.Machine.execLengthByteReserved01 x s
  | .lengthByteReserved10 x => Sys2Proof.Machine.execLengthByteReserved10 x s
  | .lengthByteReserved11 x => Sys2Proof.Machine.execLengthByteReserved11 x s
  | .label l => Sys2Proof.Machine.execLabel l s
  | .name n => Sys2Proof.Machine.execName n s
  | .question q => Sys2Proof.Machine.execQuestion q s
  | .message m => Sys2Proof.Machine.execMessage m s
  | .recordTypeA => Sys2Proof.Machine.execRecordTypeA s
  | .recordTypeNS => Sys2Proof.Machine.execRecordTypeNS s
  | .recordTypeMD => Sys2Proof.Machine.execRecordTypeMD s
  | .recordTypeMF => Sys2Proof.Machine.execRecordTypeMF s
  | .recordTypeCNAME => Sys2Proof.Machine.execRecordTypeCNAME s
  | .recordTypeSOA => Sys2Proof.Machine.execRecordTypeSOA s
  | .recordTypeMB => Sys2Proof.Machine.execRecordTypeMB s
  | .recordTypeMG => Sys2Proof.Machine.execRecordTypeMG s
  | .recordTypeMR => Sys2Proof.Machine.execRecordTypeMR s
  | .recordTypeNULL => Sys2Proof.Machine.execRecordTypeNULL s
  | .recordTypeWKS => Sys2Proof.Machine.execRecordTypeWKS s
  | .recordTypePTR => Sys2Proof.Machine.execRecordTypePTR s
  | .recordTypeHINFO => Sys2Proof.Machine.execRecordTypeHINFO s
  | .recordTypeMINFO => Sys2Proof.Machine.execRecordTypeMINFO s
  | .recordTypeMX => Sys2Proof.Machine.execRecordTypeMX s
  | .recordTypeTXT => Sys2Proof.Machine.execRecordTypeTXT s
  | .recordTypeAAAA => Sys2Proof.Machine.execRecordTypeAAAA s
  | .recordClassIN => Sys2Proof.Machine.execRecordClassIN s
  | .recordClassCS => Sys2Proof.Machine.execRecordClassCS s
  | .recordClassCH => Sys2Proof.Machine.execRecordClassCH s
  | .recordClassHS => Sys2Proof.Machine.execRecordClassHS s
  | .opcodeQuery => Sys2Proof.Machine.execOpcodeQuery s
  | .opcodeInverseQuery => Sys2Proof.Machine.execOpcodeInverseQuery s
  | .opcodeStatus => Sys2Proof.Machine.execOpcodeStatus s
  | .responseCodeNoError => Sys2Proof.Machine.execResponseCodeNoError s
  | .responseCodeFormatError => Sys2Proof.Machine.execResponseCodeFormatError s
  | .responseCodeServerFailure => Sys2Proof.Machine.execResponseCodeServerFailure s
  | .responseCodeNameError => Sys2Proof.Machine.execResponseCodeNameError s
  | .responseCodeNotImplemented => Sys2Proof.Machine.execResponseCodeNotImplemented s
  | .responseCodeRefused => Sys2Proof.Machine.execResponseCodeRefused s

end Sys2Proof.Machine
end

