-- ==== Sys2Proof/Decode.lean ====
section
/-!
DEFINITION. The decoder, from a request to an instruction, total and rejecting by name; the encoder
beside it; and the numbering of spec/opcode_table.json. An operation is selected by its 5-bit OPSEL
(spec/30_encoding.md R80, R81). An element of a wire format is read from its bytes by the decoder the
spec gives that format, at the origin; bytes behind the element are not read (R134 (e), R142 (d),
R155).
-/

namespace Sys2Proof

open Machine

/-- Why a request selects no instruction. -/
inductive Reject where
  /-- An OPSEL value that names no operation (R81). -/
  | unknownOpsel
  /-- Bytes that are no element of the format: the error the format's decoder raises (R76). -/
  | badElement (e : Err)
  deriving DecidableEq, Repr

/-- The operation an OPSEL value names (R80); 0x00 and 0x1C to 0x1F name none (R81). -/
def decodeOpsel (k : BitVec 5) : Except Reject Instr :=
  match k.toNat with
  | 0x01 => .ok .take
  | 0x02 => .ok .takeBit
  | 0x03 => .ok .takeNibble
  | 0x04 => .ok .takeU16
  | 0x05 => .ok .rtypeDecode
  | 0x06 => .ok .rtypeEncode
  | 0x07 => .ok .rtypeBits
  | 0x08 => .ok .rclassDecode
  | 0x09 => .ok .rclassEncode
  | 0x0A => .ok .rclassBits
  | 0x0B => .ok .opcodeDecode
  | 0x0C => .ok .opcodeEncode
  | 0x0D => .ok .opcodeBits
  | 0x0E => .ok .rcodeDecode
  | 0x0F => .ok .rcodeEncode
  | 0x10 => .ok .rcodeBits
  | 0x11 => .ok .hdrNew
  | 0x12 => .ok .hdrEncode
  | 0x13 => .ok .hdrDecode
  | 0x14 => .ok .nameSplit
  | 0x15 => .ok .nameEncode
  | 0x16 => .ok .nameDecode
  | 0x17 => .ok .qEncode
  | 0x18 => .ok .qDecode
  | 0x19 => .ok .msgBuild
  | 0x1A => .ok .msgEncode
  | 0x1B => .ok .msgDecode
  | _ => .error .unknownOpsel

/-- The classification of a length byte by its top two bits and its value (R68). -/
def decodeLengthByte (b : Byte) : Instr :=
  let x : U6 := b.extractLsb' 0 6
  match (b.extractLsb' 6 2).toNat with
  | 0 => if x = 0 then .lengthByteRoot else .lengthByteLabel x
  | 1 => .lengthByteReserved01 x
  | 2 => .lengthByteReserved10 x
  | _ => .lengthByteReserved11 x

/-- The row of a RecordType code. -/
def recordTypeRow : RecordType → Instr
  | .A => .recordTypeA
  | .NS => .recordTypeNS
  | .MD => .recordTypeMD
  | .MF => .recordTypeMF
  | .CNAME => .recordTypeCNAME
  | .SOA => .recordTypeSOA
  | .MB => .recordTypeMB
  | .MG => .recordTypeMG
  | .MR => .recordTypeMR
  | .NULL => .recordTypeNULL
  | .WKS => .recordTypeWKS
  | .PTR => .recordTypePTR
  | .HINFO => .recordTypeHINFO
  | .MINFO => .recordTypeMINFO
  | .MX => .recordTypeMX
  | .TXT => .recordTypeTXT
  | .AAAA => .recordTypeAAAA

/-- The row of a RecordClass code. -/
def recordClassRow : RecordClass → Instr
  | .IN => .recordClassIN
  | .CS => .recordClassCS
  | .CH => .recordClassCH
  | .HS => .recordClassHS

/-- The row of a Opcode code. -/
def opcodeRow : Opcode → Instr
  | .Query => .opcodeQuery
  | .InverseQuery => .opcodeInverseQuery
  | .Status => .opcodeStatus

/-- The row of a ResponseCode code. -/
def responseCodeRow : ResponseCode → Instr
  | .NoError => .responseCodeNoError
  | .FormatError => .responseCodeFormatError
  | .ServerFailure => .responseCodeServerFailure
  | .NameError => .responseCodeNameError
  | .NotImplemented => .responseCodeNotImplemented
  | .Refused => .responseCodeRefused

/-- Read one label: its length byte and its bytes. The length byte 0 is the root label, and 64 and
above is no label (R63, R68). -/
def decodeLabel (bytes : List Byte) : Except Err Instr := do
  let (c, len) ← takeByte bytes Cursor.origin
  if len.toNat = 0 then return .lengthByteRoot
  if 64 ≤ len.toNat then throw .CompressionUnsupported
  let (l, _) ← readLabel bytes len.toNat c
  return .label l

/-- Read an element of a wire format from its bytes. -/
def decodeElement (f : WireFormat) (bytes : List Byte) : Except Err Instr :=
  match f with
  | .hdr96 => do
    let (h, _) ← hdrDecode bytes Cursor.origin
    return .header h
  | .len8 => do
    let (_, b) ← takeByte bytes Cursor.origin
    return decodeLengthByte b
  | .label => decodeLabel bytes
  | .name => do
    let (n, _) ← nameDecode bytes Cursor.origin
    return .name n
  | .question => do
    let (q, _) ← qDecode bytes Cursor.origin
    return .question q
  | .message => do
    let m ← msgDecode bytes
    return .message m
  | .rtype16 => do
    let (_, code) ← takeU16 bytes Cursor.origin
    let v ← rtypeDecode code
    return recordTypeRow v
  | .rclass16 => do
    let (_, code) ← takeU16 bytes Cursor.origin
    let v ← rclassDecode code
    return recordClassRow v
  | .opcode4 => do
    let (_, code) ← takeNibble bytes Cursor.origin
    let v ← opcodeDecode code
    return opcodeRow v
  | .rcode4 => do
    let (_, code) ← takeNibble bytes Cursor.origin
    let v ← rcodeDecode code
    return responseCodeRow v

/-- The decoder. -/
def decode : Request → Except Reject Instr
  | .op k => decodeOpsel k
  | .wire f bytes =>
    match decodeElement f bytes with
    | .ok i => .ok i
    | .error e => .error (.badElement e)

/-- The bytes of an element whose bits an encoder gives. An ill-formed element has none; the encoder
is for well-formed instructions. -/
def elementBytes (bits : Except Err (List Bool)) : List Byte :=
  match bits with
  | .ok out => pack out
  | .error _ => []

/-- A length byte from its top two bits and its six low bits (R68). -/
def lengthByte (top : BitVec 2) (x : U6) : Byte :=
  top ++ x

/-- The encoder: the request that selects a well-formed instruction. -/
def encode : Instr → Request
  | .take => .op 0x01
  | .takeBit => .op 0x02
  | .takeNibble => .op 0x03
  | .takeU16 => .op 0x04
  | .rtypeDecode => .op 0x05
  | .rtypeEncode => .op 0x06
  | .rtypeBits => .op 0x07
  | .rclassDecode => .op 0x08
  | .rclassEncode => .op 0x09
  | .rclassBits => .op 0x0A
  | .opcodeDecode => .op 0x0B
  | .opcodeEncode => .op 0x0C
  | .opcodeBits => .op 0x0D
  | .rcodeDecode => .op 0x0E
  | .rcodeEncode => .op 0x0F
  | .rcodeBits => .op 0x10
  | .hdrNew => .op 0x11
  | .hdrEncode => .op 0x12
  | .hdrDecode => .op 0x13
  | .nameSplit => .op 0x14
  | .nameEncode => .op 0x15
  | .nameDecode => .op 0x16
  | .qEncode => .op 0x17
  | .qDecode => .op 0x18
  | .msgBuild => .op 0x19
  | .msgEncode => .op 0x1A
  | .msgDecode => .op 0x1B
  | .header h => .wire .hdr96 (pack (hdrEncode h))
  | .lengthByteRoot => .wire .len8 [0x00]
  | .lengthByteLabel len => .wire .len8 [lengthByte 0 len]
  | .lengthByteReserved01 x => .wire .len8 [lengthByte 1 x]
  | .lengthByteReserved10 x => .wire .len8 [lengthByte 2 x]
  | .lengthByteReserved11 x => .wire .len8 [lengthByte 3 x]
  | .label l => .wire .label (BitVec.ofNat 8 l.length :: l)
  | .name n => .wire .name (elementBytes (nameEncode n))
  | .question q => .wire .question (elementBytes (qEncode q))
  | .message m => .wire .message (elementBytes (msgBits m))
  | .recordTypeA => .wire .rtype16 (pack (rtypeBits .A))
  | .recordTypeNS => .wire .rtype16 (pack (rtypeBits .NS))
  | .recordTypeMD => .wire .rtype16 (pack (rtypeBits .MD))
  | .recordTypeMF => .wire .rtype16 (pack (rtypeBits .MF))
  | .recordTypeCNAME => .wire .rtype16 (pack (rtypeBits .CNAME))
  | .recordTypeSOA => .wire .rtype16 (pack (rtypeBits .SOA))
  | .recordTypeMB => .wire .rtype16 (pack (rtypeBits .MB))
  | .recordTypeMG => .wire .rtype16 (pack (rtypeBits .MG))
  | .recordTypeMR => .wire .rtype16 (pack (rtypeBits .MR))
  | .recordTypeNULL => .wire .rtype16 (pack (rtypeBits .NULL))
  | .recordTypeWKS => .wire .rtype16 (pack (rtypeBits .WKS))
  | .recordTypePTR => .wire .rtype16 (pack (rtypeBits .PTR))
  | .recordTypeHINFO => .wire .rtype16 (pack (rtypeBits .HINFO))
  | .recordTypeMINFO => .wire .rtype16 (pack (rtypeBits .MINFO))
  | .recordTypeMX => .wire .rtype16 (pack (rtypeBits .MX))
  | .recordTypeTXT => .wire .rtype16 (pack (rtypeBits .TXT))
  | .recordTypeAAAA => .wire .rtype16 (pack (rtypeBits .AAAA))
  | .recordClassIN => .wire .rclass16 (pack (rclassBits .IN))
  | .recordClassCS => .wire .rclass16 (pack (rclassBits .CS))
  | .recordClassCH => .wire .rclass16 (pack (rclassBits .CH))
  | .recordClassHS => .wire .rclass16 (pack (rclassBits .HS))
  | .opcodeQuery => .wire .opcode4 (pack (opcodeBits .Query))
  | .opcodeInverseQuery => .wire .opcode4 (pack (opcodeBits .InverseQuery))
  | .opcodeStatus => .wire .opcode4 (pack (opcodeBits .Status))
  | .responseCodeNoError => .wire .rcode4 (pack (rcodeBits .NoError))
  | .responseCodeFormatError => .wire .rcode4 (pack (rcodeBits .FormatError))
  | .responseCodeServerFailure => .wire .rcode4 (pack (rcodeBits .ServerFailure))
  | .responseCodeNameError => .wire .rcode4 (pack (rcodeBits .NameError))
  | .responseCodeNotImplemented => .wire .rcode4 (pack (rcodeBits .NotImplemented))
  | .responseCodeRefused => .wire .rcode4 (pack (rcodeBits .Refused))

/-- The `n` bytes of a word of `8*n` bits, most significant first (R40). -/
def wordBytes : Nat → Nat → List Byte
  | 0, _ => []
  | n + 1, w => BitVec.ofNat 8 (w / 256 ^ n) :: wordBytes n w

/-- The request a word of spec/opcode_table.json stands for. The table numbers a row's bits as one
word, bit 0 the least significant and the last on the wire. A row's width tells its format, but not
between rows of one width: an 8-bit word is an operation where its value is an OPSEL code, and a
length byte otherwise; a 16-bit word is a RecordType code (log entry 4). Zero bytes follow a label. -/
def tableRequest (nbits w : Nat) : Request :=
  if nbits = 8 then
    if 0x01 ≤ w ∧ w ≤ 0x1B then .op (BitVec.ofNat 5 w) else .wire .len8 (wordBytes 1 w)
  else if nbits = 16 then .wire .rtype16 (wordBytes 2 w)
  else if nbits = 96 then .wire .hdr96 (wordBytes 12 w)
  else .wire .label (wordBytes (nbits / 8) w ++ List.replicate Config.labelMax 0)

/-- The instruction the decoder reads from a word of the table. -/
def decodeTableWord (nbits w : Nat) : Option Instr :=
  match decode (tableRequest nbits w) with
  | .ok i => some i
  | .error _ => none

end Sys2Proof
end

