-- ==== Sys2Proof/Machine/Transaction.lean ====
section
/-!
DEFINITION. The end of a transaction whose request selects no instruction.
-/

namespace Sys2Proof.Machine

/-- An OPSEL value that names no operation is refused: the block gives it no meaning (R81, R175). Bytes
that are no element of their format are the one named error of the format's decoder (R76), raised as
any error is. -/
def rejectRequest (s : State) : Reject → Step
  | .unknownOpsel => .refused .unknownOpsel
  | .badElement e => .next (s.raise e)

end Sys2Proof.Machine
end

