-- ==== Sys2Proof/Machine/Step.lean ====
section
/-!
DEFINITION. One step of the machine: one whole transaction (spec/10_state.md R20). There is no fetch from
a memory (R33, spec/20_memory.md R51): the block takes the oldest transaction the host has presented.
-/

namespace Sys2Proof.Machine

/-- One transaction: its operands are copied in, its request is decoded, and the instruction runs.
With none presented the block stays idle (R190). -/
def step (s : State) : Host.Outcome State Fault Refusal :=
  match s.pending with
  | [] => .next s
  | t :: rest =>
    match decode t.request with
    | .ok i => exec i (s.begin t rest)
    | .error r => rejectRequest (s.begin t rest) r

/-- `s` with the instruction of a table word presented as its next transaction, on the operands `s`
holds. This stands for the host presenting a transaction (log entry 4). -/
def State.withFetchWord (s : State) (nbits w : Nat) : State :=
  { s with pending := ⟨tableRequest nbits w, s.args⟩ :: s.pending }

end Sys2Proof.Machine
end

