-- ==== Sys2Proof/Machine/Flags.lean ====
section
/-!
DEFINITION. The block has no status flags and no condition codes (spec/10_state.md R30) and no status
register (R31): the only outcome of an operation is its result. What a port shows of that outcome is
its 4-bit STATUS code and, for a host that tests classes, the class of an error.
-/

namespace Sys2Proof.Machine

/-- The 4-bit STATUS of an error (spec/60_exceptions.md R161). -/
def errStatus : Err → BitVec 4
  | .Underrun => 1
  | .Truncated => 2
  | .MalformedReserved => 3
  | .UnsupportedCode => 4
  | .CompressionUnsupported => 5
  | .LabelTooLong => 6
  | .NameTooLong => 7
  | .EmptyLabel => 8

/-- The STATUS of a transaction's answer: 0 for `Ok`; 9 to 15 are never produced (R161). -/
def responseStatus : Response → BitVec 4
  | .ok _ => 0
  | .err e => errStatus e

/-- The five classes of errors (R160). -/
inductive ErrClass where
  | validation | unsupportedCode | shortage | malformedReserved | compressionUnsupported
  deriving DecidableEq, Repr

/-- The class of an error (R160); `Truncated` and `Underrun` are one class (R163). -/
def errClass : Err → ErrClass
  | .Underrun => .shortage
  | .Truncated => .shortage
  | .MalformedReserved => .malformedReserved
  | .UnsupportedCode => .unsupportedCode
  | .CompressionUnsupported => .compressionUnsupported
  | .LabelTooLong => .validation
  | .NameTooLong => .validation
  | .EmptyLabel => .validation

end Sys2Proof.Machine
end

