-- ==== Sys2Proof/Safety.lean ====
section
/-!
DEFINITION. What a safe run is: one in which the host keeps its duties, so that nothing is refused
(spec/70_reset_and_hazards.md R192 (a), spec/60_exceptions.md R175).
-/

namespace Sys2Proof.Machine

/-- The instruction takes a cursor operand (R78; for the two length bytes, log entry 3). -/
def usesCursor : Instr → Bool
  | .take
  | .takeBit | .takeNibble | .takeU16 | .hdrDecode | .nameDecode | .qDecode
  | .lengthByteRoot | .lengthByteLabel _ => true
  | .rtypeDecode | .rtypeEncode | .rtypeBits | .rclassDecode | .rclassEncode | .rclassBits
  | .opcodeDecode | .opcodeEncode | .opcodeBits | .rcodeDecode | .rcodeEncode | .rcodeBits
  | .hdrNew | .hdrEncode | .nameSplit | .nameEncode | .qEncode | .msgBuild
  | .msgEncode | .msgDecode | .header _ | .lengthByteReserved01 _ | .lengthByteReserved10 _ | .lengthByteReserved11 _
  | .label _ | .name _ | .question _ | .message _ | .recordTypeA | .recordTypeNS
  | .recordTypeMD | .recordTypeMF | .recordTypeCNAME | .recordTypeSOA | .recordTypeMB | .recordTypeMG
  | .recordTypeMR | .recordTypeNULL | .recordTypeWKS | .recordTypePTR | .recordTypeHINFO | .recordTypeMINFO
  | .recordTypeMX | .recordTypeTXT | .recordTypeAAAA | .recordClassIN | .recordClassCS | .recordClassCH
  | .recordClassHS | .opcodeQuery | .opcodeInverseQuery | .opcodeStatus | .responseCodeNoError | .responseCodeFormatError
  | .responseCodeServerFailure | .responseCodeNameError | .responseCodeNotImplemented | .responseCodeRefused => false

/-- The instruction takes a width operand: TAKE alone (R78). -/
def usesWidth (i : Instr) : Bool :=
  decide (i = .take)

/-- The operands are within the instruction's contract: a cursor well-formed for its buffer, a width of
1 to 16 (R95). The other operand types hold nothing outside their contract. -/
def OperandsInContract (i : Instr) (a : Operands) : Prop :=
  (usesCursor i = true → a.cur.WellFormed a.buf) ∧ (usesWidth i = true → 1 ≤ a.n ∧ a.n ≤ 16)

/-- The transaction is within the block's contract: it names an operation or presents bytes to a
format's decoder, on operands within the contract (R175, R192 (a)). -/
def InContract (t : Transaction) : Prop :=
  match decode t.request with
  | .ok i => OperandsInContract i t.args
  | .error .unknownOpsel => False
  | .error (.badElement _) => True

/-- A safe state: everything the host has presented is within the contract. -/
def Safe (s : State) : Prop :=
  ∀ t ∈ s.pending, InContract t

/-- What a transaction is answered when it is the only one ever presented, right after reset. -/
def answerAlone (t : Transaction) : Option Response :=
  match step { State.reset with pending := [t] } with
  | .next s => s.results.getLast?
  | .fault _ => none
  | .refused _ => none

end Sys2Proof.Machine
end

