-- ==== Sys2Proof/WellFormed.lean ====
section
/-!
DEFINITION. Which instructions are well-formed: those the spec gives an encoding. An operation, a code
and a length byte's reserved forms carry nothing that could be wrong; a label has 1 to 63 bytes
(spec/30_encoding.md R63), so has every label of a name (R64) and of a question (R65), and a message has
as many questions as its header counts (R66, spec/45_message.md R156 (a)). The 255-byte limit of a name is
not here: the encoder and the decoder both take longer ones (spec/43_name.md R133, R134 (d)).
-/

namespace Sys2Proof

/-- A label of 1 to 63 bytes (R25, R63). -/
def labelWellFormed (l : Label) : Bool :=
  decide (1 ≤ l.length) && decide (l.length ≤ Config.labelMax)

/-- Every label of the name has 1 to 63 bytes. -/
def labelsWellFormed (n : Name) : Bool :=
  n.all labelWellFormed

/-- The message's count agrees with its questions, and every label has 1 to 63 bytes (R156 (a)). -/
def messageWellFormed (m : Message) : Bool :=
  decide (m.hdr.qdcount.toNat = m.qs.length) && m.qs.all fun q => labelsWellFormed q.name

/-- The instruction has an encoding. -/
def Instr.WellFormed : Instr → Bool
  | .lengthByteLabel len => decide (len ≠ 0)
  | .label l => labelWellFormed l
  | .name n => labelsWellFormed n
  | .question q => labelsWellFormed q.name
  | .message m => messageWellFormed m
  | .take | .takeBit | .takeNibble | .takeU16 | .rtypeDecode | .rtypeEncode
  | .rtypeBits | .rclassDecode | .rclassEncode | .rclassBits | .opcodeDecode | .opcodeEncode
  | .opcodeBits | .rcodeDecode | .rcodeEncode | .rcodeBits | .hdrNew | .hdrEncode
  | .hdrDecode | .nameSplit | .nameEncode | .nameDecode | .qEncode | .qDecode
  | .msgBuild | .msgEncode | .msgDecode | .header _ | .lengthByteRoot | .lengthByteReserved01 _
  | .lengthByteReserved10 _ | .lengthByteReserved11 _ | .recordTypeA | .recordTypeNS | .recordTypeMD | .recordTypeMF
  | .recordTypeCNAME | .recordTypeSOA | .recordTypeMB | .recordTypeMG | .recordTypeMR | .recordTypeNULL
  | .recordTypeWKS | .recordTypePTR | .recordTypeHINFO | .recordTypeMINFO | .recordTypeMX | .recordTypeTXT
  | .recordTypeAAAA | .recordClassIN | .recordClassCS | .recordClassCH | .recordClassHS | .opcodeQuery
  | .opcodeInverseQuery | .opcodeStatus | .responseCodeNoError | .responseCodeFormatError | .responseCodeServerFailure | .responseCodeNameError
  | .responseCodeNotImplemented | .responseCodeRefused => true

end Sys2Proof
end

