-- ==== Sys2Proof/Certificates/Slice0/Obligations.lean ====
section
/-!
DEFINITION. What is claimed of the machine, for the provers. First the spec's own tables and layouts, written
here a second time, from the spec's words and at the level of bytes, so that a claim does not repeat
the definition it is about. Then the claims, in the order of the spec's files.
-/

namespace Sys2Proof.Spec

open Sys2Proof.Machine

/-- Stream bit `k` is bit `7 - (k mod 8)` of byte `k div 8` (R13). -/
def bitAt (buf : List Byte) (k : Nat) : Bool :=
  (buf[k / 8]?.getD 0).getLsbD (7 - k % 8)

/-- `v` is the unsigned value of the `n` stream bits from `p`, most significant first (R15, R40). -/
def FieldIs (buf : List Byte) (p n v : Nat) : Prop :=
  v < 2 ^ n ∧ ∀ k, k < n → v.testBit (n - 1 - k) = bitAt buf (p + k)

/-- The bits of a byte sequence, bit 7 of the first byte first (R13). -/
def bitsOf (bytes : List Byte) : List Bool :=
  bytes.flatMap fun b => (List.range 8).map fun i => b.getLsbD (7 - i)

/-- A 16-bit field on a byte boundary, high byte first (R40). -/
def u16Bytes (v : U16) : List Byte :=
  [BitVec.ofNat 8 (v.toNat / 256), BitVec.ofNat 8 (v.toNat % 256)]

/-- Header byte 2 (R62). -/
def flagByte2 (h : Header) : Nat :=
  (if h.qr = .Response then 128 else 0) + (opcodeEncode h.opcode).toNat * 8 + h.aa.toNat * 4
    + h.tc.toNat * 2 + h.rd.toNat

/-- Header byte 3, with Z = 0 (R62). -/
def flagByte3 (h : Header) : Nat :=
  h.ra.toNat * 128 + (rcodeEncode h.rcode).toNat

/-- The twelve bytes of a header (R61, R62). -/
def headerBytes (h : Header) : List Byte :=
  u16Bytes h.id ++ [BitVec.ofNat 8 (flagByte2 h), BitVec.ofNat 8 (flagByte3 h)]
    ++ u16Bytes h.qdcount ++ u16Bytes h.ancount ++ u16Bytes h.nscount ++ u16Bytes h.arcount

/-- The bytes of a name: each label behind its length byte, then the root label (R63, R64). -/
def nameBytes (n : Name) : List Byte :=
  (n.flatMap fun l => BitVec.ofNat 8 l.length :: l) ++ [0]

/-- The bytes of a question (R65). -/
def questionBytes (q : Question) : List Byte :=
  nameBytes q.name ++ u16Bytes (rtypeEncode q.qtype) ++ u16Bytes (rclassEncode q.qclass)

/-- The bytes of a message (R66). -/
def messageBytes (m : Message) : List Byte :=
  headerBytes m.hdr ++ m.qs.flatMap questionBytes

/-- The table of R69. -/
def recordTypeTable : List (Nat × RecordType) :=
  [(1, .A), (2, .NS), (3, .MD), (4, .MF), (5, .CNAME), (6, .SOA), (7, .MB), (8, .MG), (9, .MR),
   (10, .NULL), (11, .WKS), (12, .PTR), (13, .HINFO), (14, .MINFO), (15, .MX), (16, .TXT), (28, .AAAA)]

/-- The table of R70. -/
def recordClassTable : List (Nat × RecordClass) :=
  [(1, .IN), (2, .CS), (3, .CH), (4, .HS)]

/-- The table of R71. -/
def opcodeTable : List (Nat × Opcode) :=
  [(0, .Query), (1, .InverseQuery), (2, .Status)]

/-- The table of R72. -/
def responseCodeTable : List (Nat × ResponseCode) :=
  [(0, .NoError), (1, .FormatError), (2, .ServerFailure), (3, .NameError), (4, .NotImplemented), (5, .Refused)]

/-- The `n` bits of a number, most significant first. -/
def numberBits (n v : Nat) : List Bool :=
  (List.range n).map fun i => v.testBit (n - 1 - i)

/-- The OPSEL assignment of R80. -/
def opselTable : List (Nat × Instr) :=
  [(0x01, .take), (0x02, .takeBit), (0x03, .takeNibble), (0x04, .takeU16), (0x05, .rtypeDecode),
   (0x06, .rtypeEncode), (0x07, .rtypeBits), (0x08, .rclassDecode), (0x09, .rclassEncode), (0x0A, .rclassBits),
   (0x0B, .opcodeDecode), (0x0C, .opcodeEncode), (0x0D, .opcodeBits), (0x0E, .rcodeDecode), (0x0F, .rcodeEncode),
   (0x10, .rcodeBits), (0x11, .hdrNew), (0x12, .hdrEncode), (0x13, .hdrDecode), (0x14, .nameSplit),
   (0x15, .nameEncode), (0x16, .nameDecode), (0x17, .qEncode), (0x18, .qDecode), (0x19, .msgBuild),
   (0x1A, .msgEncode), (0x1B, .msgDecode)]

/-- The code rows of the opcode table, each with the variant it stands for (R69 to R72). -/
def codeRows : List (Instr × Result) :=
  [(.recordTypeA, .rtype .A), (.recordTypeNS, .rtype .NS), (.recordTypeMD, .rtype .MD),
   (.recordTypeMF, .rtype .MF), (.recordTypeCNAME, .rtype .CNAME), (.recordTypeSOA, .rtype .SOA),
   (.recordTypeMB, .rtype .MB), (.recordTypeMG, .rtype .MG), (.recordTypeMR, .rtype .MR),
   (.recordTypeNULL, .rtype .NULL), (.recordTypeWKS, .rtype .WKS), (.recordTypePTR, .rtype .PTR),
   (.recordTypeHINFO, .rtype .HINFO), (.recordTypeMINFO, .rtype .MINFO), (.recordTypeMX, .rtype .MX),
   (.recordTypeTXT, .rtype .TXT), (.recordTypeAAAA, .rtype .AAAA), (.recordClassIN, .rclass .IN),
   (.recordClassCS, .rclass .CS), (.recordClassCH, .rclass .CH), (.recordClassHS, .rclass .HS),
   (.opcodeQuery, .opcode .Query), (.opcodeInverseQuery, .opcode .InverseQuery), (.opcodeStatus, .opcode .Status),
   (.responseCodeNoError, .rcode .NoError), (.responseCodeFormatError, .rcode .FormatError), (.responseCodeServerFailure, .rcode .ServerFailure),
   (.responseCodeNameError, .rcode .NameError), (.responseCodeNotImplemented, .rcode .NotImplemented), (.responseCodeRefused, .rcode .Refused)]

/-- The operations of R160's table that can raise an error. -/
def raisedBy : Err → List Instr
  | .Underrun => [.take, .takeBit, .takeNibble, .takeU16, .nameDecode, .qDecode, .msgDecode]
  | .Truncated => [.hdrDecode, .msgDecode]
  | .MalformedReserved => [.hdrDecode, .msgDecode]
  | .UnsupportedCode => [.rtypeDecode, .rclassDecode, .opcodeDecode, .rcodeDecode, .hdrDecode, .qDecode,
      .msgDecode]
  | .CompressionUnsupported => [.nameDecode, .qDecode, .msgDecode]
  | .LabelTooLong => [.msgBuild, .nameEncode, .qEncode, .msgEncode]
  | .NameTooLong => [.msgBuild]
  | .EmptyLabel => [.msgBuild, .nameEncode, .qEncode, .msgEncode]

/-- A name whose first label that breaks the label limits is `l`. -/
def FirstBadLabel (n : Name) (l : Label) : Prop :=
  ∃ before after, n = before ++ l :: after ∧ labelsWellFormed before = true ∧ labelWellFormed l = false

/-- What is true of every result the block delivers: a bit sequence is 4 bits or whole bytes, a decoded
name or question has only labels of 1 to 63 bytes, a message also has as many questions as it
counts, a wire code is in its table's range, and encoded bytes hold at least a header. -/
def ResponseSound : Response → Prop
  | .ok (.bits out) => out.length = 4 ∨ 8 ∣ out.length
  | .ok (.code16 v) => 1 ≤ v.toNat ∧ v.toNat ≤ 28
  | .ok (.code4 v) => v.toNat ≤ 5
  | .ok (.nameAt n _) => labelsWellFormed n = true
  | .ok (.label l) => labelWellFormed l = true
  | .ok (.question q) => labelsWellFormed q.name = true
  | .ok (.questionAt q _) => labelsWellFormed q.name = true
  | .ok (.msg m) => messageWellFormed m = true
  | .ok (.bytes b) => 12 ≤ b.length
  | _ => True

/-- The cursor a result carries. -/
def cursorOf : Response → Option Cursor
  | .ok (.read c _) => some c
  | .ok (.bit c _) => some c
  | .ok (.hdrAt _ c) => some c
  | .ok (.nameAt _ c) => some c
  | .ok (.labelsAt _ c) => some c
  | .ok (.questionAt _ c) => some c
  | _ => none

/-- The invariant: every result ever delivered is sound; the cursor in the last one is well-formed for the
buffer it was made on and is not behind the cursor it started from (R24); `OUT` is 4 bits or whole
bytes. -/
def Inv (s : State) : Prop :=
  (∀ r ∈ s.results, ResponseSound r) ∧
  (∀ r c, s.results.getLast? = some r → cursorOf r = some c →
    c.WellFormed s.args.buf ∧ s.args.cur.pos ≤ c.pos) ∧
  (s.out.length = 4 ∨ 8 ∣ s.out.length)

end Sys2Proof.Spec

open Sys2Proof Sys2Proof.Machine Sys2Proof.Spec

/-! ## State, transactions, reset -/

/-- R20, R29, R36: an instruction that takes a step delivers exactly one result, behind those
delivered before, and leaves everything else alone: every operand record, every byte of the input
buffer, the transactions still pending, and, unless it is an encoder of bits or MSG_ENCODE, `OUT`. -/
def Obligations.EveryInstructionsFrame : Prop :=
  ∀ (i : Instr) (s s' : State), exec i s = .next s' →
    s'.pending = s.pending ∧ s'.args = s.args ∧
    (∀ a : Nat, s'.args.buf[a]? = s.args.buf[a]?) ∧
    (∃ r, s'.results = s.results ++ [r]) ∧
    (i ∉ [.rtypeBits, .rclassBits, .opcodeBits, .rcodeBits, .hdrEncode, .nameEncode, .qEncode, .msgEncode] →
      s'.out = s.out)

/-- R170: when an operation raises an error, the error is all there is: no record, no bit of `OUT`, no
pending transaction and no earlier result is touched. -/
def Obligations.AnErrorLeavesNothingElse : Prop :=
  ∀ (i : Instr) (s s' : State) (e : Err), exec i s = .next s' → s'.results = s.results ++ [.err e] →
    s' = { s with results := s.results ++ [.err e] }

/-- R21, R48, R174: no transaction's result depends on any other. However many transactions a host
presents, within their contracts, running them all answers each exactly as it is answered when it
is the only one ever presented after reset, in the order presented. -/
def Obligations.TransactionsAreIndependent : Prop :=
  ∀ s : State, Safe s →
    ∃ s', Sys2Proof.core.run s.pending.length s = .next s' ∧ s'.pending = [] ∧
      s'.results.map some = s.results.map some ++ s.pending.map answerAlone

/-- R35, R21: a transaction starts from its operands and an empty `OUT`, whatever records an earlier
one left. -/
def Obligations.NothingIsLeftFromEarlierTransactions : Prop :=
  ∀ s s' : State, s.pending ≠ [] → s.pending = s'.pending → s.results = s'.results → step s = step s'

/-- R190: reset leaves the block idle, with no transaction in progress, an empty `OUT` and no result, and
ready: whatever transaction within its contract is presented first is answered with exactly one
result, and with the same one that it is answered with in any later idle state. That `OUT` is empty
at reset is the model's choice (log entry 2: R35 says that it does not exist then), and so is that an
element presented alone is a transaction (log entry 3); the operand records at reset are the model's
choice too (log entry 2) and are not claimed. -/
def Obligations.ResetIsIdleAndReady : Prop :=
  State.reset.pending = [] ∧ State.reset.out = [] ∧ State.reset.results = [] ∧
  ∀ t : Transaction, InContract t →
    ∃ s' r, step { State.reset with pending := [t] } = .next s' ∧ s'.pending = [] ∧ s'.results = [r] ∧
      ∀ idle : State, idle.pending = [] →
        ∃ s'', step { idle with pending := [t] } = .next s'' ∧ s''.pending = [] ∧
          s''.results = idle.results ++ [r]

/-- A step runs the decoded instruction: when the oldest pending transaction's request decodes to `i`, the
step is `i` run on that transaction's operands and an empty `OUT`; when its bytes are no element of
their format, the step raises the decoder's error (R76: they are one named error; that an element is
presented alone, so that a step meets such bytes, is the model's choice, log entry 3); and with no
transaction pending the block stays as it is (the model's choice, log entry 5). -/
def Obligations.StepRunsTheDecodedInstruction : Prop :=
  (∀ s : State, s.pending = [] → step s = .next s) ∧
  ∀ (s : State) (t : Transaction) (rest : List Transaction), s.pending = t :: rest →
    (∀ i, decode t.request = .ok i →
      step s = exec i { pending := rest, args := t.args, out := [], results := s.results }) ∧
    (∀ e, decode t.request = .error (.badElement e) →
      step s = .next { pending := rest, args := t.args, out := [], results := s.results ++ [.err e] })

/-- The invariant at reset. That `OUT` is empty and no result is held then is the model's choice (log
entries 2 and 6). -/
def Obligations.InvariantHoldsAtReset : Prop :=
  Inv State.reset

/-- The invariant, from every state that meets it and whatever the host presents: every step keeps it. -/
def Obligations.EveryStepKeepsTheInvariant : Prop :=
  ∀ s s' : State, Inv s → step s = .next s' → Inv s'

/-! ## Bits and bytes -/

/-- R54, R41: two reads in a row are one read of both widths, and a read that runs out of bits runs
out in one of its halves. -/
def Obligations.ReadsInARowAreOneRead : Prop :=
  (∀ (buf : List Byte) (p a b : Nat), a + b ≤ 16 →
    memRead buf p (a + b) = memRead buf p a * 2 ^ b + memRead buf (p + a) b) ∧
  ∀ (buf : List Byte) (c0 : Cursor) (a b : Nat), c0.WellFormed buf → 1 ≤ a → a ≤ 16 → 1 ≤ b → b ≤ 16 →
    (∀ c1 v1 c2 v2, take buf c0 a = .ok (c1, v1) → take buf c1 b = .ok (c2, v2) →
      c1.pos = c0.pos + a ∧ c2.pos = c0.pos + a + b ∧
      (a + b ≤ 16 → take buf c0 (a + b) = .ok (c2, v1 * 2 ^ b + v2))) ∧
    (a + b ≤ 16 → take buf c0 (a + b) = .error .Underrun →
      take buf c0 a = .error .Underrun ∨
      ∃ c1 v1, take buf c0 a = .ok (c1, v1) ∧ take buf c1 b = .error .Underrun)

/-- R53: a field read from packed bits is those bits, and past the packed bits every bit is 0. -/
def Obligations.ReadAfterPack : Prop :=
  ∀ bits : List Bool,
    (∀ p n, 1 ≤ n → n ≤ 16 → p + n ≤ bits.length →
      memRead (pack bits) p n < 2 ^ n ∧
      ∀ k, k < n → (memRead (pack bits) p n).testBit (n - 1 - k) = bits.getD (p + k) false) ∧
    ∀ p, bits.length ≤ p → p < 8 * (pack bits).length → streamBit (pack bits) p = false

/-- R154: the layout of packed bits, and that a message's bits are whole bytes. -/
def Obligations.PackLayout : Prop :=
  (∀ bits : List Bool,
    (pack bits).length = (bits.length + 7) / 8 ∧
    ∀ j i, j < (pack bits).length → i < 8 →
      ((pack bits)[j]?.getD 0).getLsbD (7 - i) = bits.getD (8 * j + i) false) ∧
  pack [] = [] ∧
  (∀ bytes : List Byte, pack (bitsOf bytes) = bytes) ∧
  ∀ (m : Message) (out : List Bool), msgBits m = .ok out → 8 ∣ out.length

/-! ## BitCursor -/

/-- R90: TAKE. -/
def Obligations.TakeReadsTheNextBits : Prop :=
  ∀ s : State, s.args.cur.WellFormed s.args.buf → 1 ≤ s.args.n → s.args.n ≤ 16 →
    (s.args.cur.pos + s.args.n ≤ 8 * s.args.buf.length →
      ∃ v : U16, FieldIs s.args.buf s.args.cur.pos s.args.n v.toNat ∧
        exec .take s = .next (s.deliver (.ok (.read
          ⟨(s.args.cur.pos + s.args.n) / 8, (s.args.cur.pos + s.args.n) % 8⟩ v)))) ∧
    (8 * s.args.buf.length < s.args.cur.pos + s.args.n → exec .take s = .next (s.raise .Underrun))

/-- R91: TAKE_BIT. -/
def Obligations.TakeBitReadsOneBit : Prop :=
  ∀ s : State, s.args.cur.WellFormed s.args.buf →
    (s.args.cur.pos + 1 ≤ 8 * s.args.buf.length →
      exec .takeBit s = .next (s.deliver (.ok (.bit
        ⟨(s.args.cur.pos + 1) / 8, (s.args.cur.pos + 1) % 8⟩ (bitAt s.args.buf s.args.cur.pos))))) ∧
    (8 * s.args.buf.length < s.args.cur.pos + 1 → exec .takeBit s = .next (s.raise .Underrun))

/-- R92: TAKE_NIBBLE. -/
def Obligations.TakeNibbleReadsFourBits : Prop :=
  ∀ s : State, s.args.cur.WellFormed s.args.buf →
    (s.args.cur.pos + 4 ≤ 8 * s.args.buf.length →
      ∃ v : U16, FieldIs s.args.buf s.args.cur.pos 4 v.toNat ∧ v.toNat ≤ 15 ∧
        exec .takeNibble s = .next (s.deliver (.ok (.read
          ⟨(s.args.cur.pos + 4) / 8, (s.args.cur.pos + 4) % 8⟩ v)))) ∧
    (8 * s.args.buf.length < s.args.cur.pos + 4 → exec .takeNibble s = .next (s.raise .Underrun))

/-- R93: TAKE_U16, big-endian on a byte boundary. -/
def Obligations.TakeU16ReadsABigEndianWord : Prop :=
  ∀ s : State, s.args.cur.WellFormed s.args.buf →
    (s.args.cur.pos + 16 ≤ 8 * s.args.buf.length →
      ∃ v : U16, FieldIs s.args.buf s.args.cur.pos 16 v.toNat ∧
        (s.args.cur.bit = 0 → v.toNat =
          256 * (s.args.buf[s.args.cur.byte]?.getD 0).toNat + (s.args.buf[s.args.cur.byte + 1]?.getD 0).toNat) ∧
        exec .takeU16 s = .next (s.deliver (.ok (.read
          ⟨(s.args.cur.pos + 16) / 8, (s.args.cur.pos + 16) % 8⟩ v)))) ∧
    (8 * s.args.buf.length < s.args.cur.pos + 16 → exec .takeU16 s = .next (s.raise .Underrun))

/-- R175, R95, R81: what is refused. A TAKE width outside 1 to 16, a cursor ill-formed for its buffer,
and an OPSEL value that names no operation are given no step. -/
def Obligations.WhatIsOutsideTheContractIsRefused : Prop :=
  (∀ s : State, (s.args.n = 0 ∨ 16 < s.args.n) → ∃ r, exec .take s = .refused r) ∧
  (∀ s : State, (7 < s.args.cur.bit ∨ 8 * s.args.buf.length < s.args.cur.pos) →
    ∀ i ∈ [Instr.take, .takeBit, .takeNibble, .takeU16, .hdrDecode, .nameDecode, .qDecode],
      ∃ r, exec i s = .refused r) ∧
  ∀ (s : State) (t : Transaction) (rest : List Transaction) (k : BitVec 5), s.pending = t :: rest →
    t.request = .op k → (k.toNat = 0 ∨ 0x1C ≤ k.toNat) → ∃ r, step s = .refused r

/-- Nothing else is refused, and nothing ever faults: an instruction whose operands are within its
contract takes a step, and so does every transaction within the block's contract. That an element is
presented alone, and that a length byte then takes a cursor, is the model's choice (log entry 3). -/
def Obligations.NothingWithinTheContractStops : Prop :=
  (∀ (i : Instr) (s : State), (∃ s', exec i s = .next s') ↔ OperandsInContract i s.args) ∧
  ∀ (s : State) (t : Transaction) (rest : List Transaction), s.pending = t :: rest →
    ((∃ s', step s = .next s') ↔ InContract t)

/-- How far a decoder moves its cursor (R24): HDR_DECODE 96 bits, NAME_DECODE the bits of the encoded
name, Q_DECODE those and 32 more; never past the end, and always to the canonical form. -/
def Obligations.DecodersAdvanceByWhatTheyRead : Prop :=
  ∀ (buf : List Byte) (c : Cursor), c.WellFormed buf →
    (∀ h c', hdrDecode buf c = .ok (h, c') → c'.pos = c.pos + 96 ∧ c'.WellFormed buf) ∧
    (∀ n c', nameDecode buf c = .ok (n, c') → c'.pos = c.pos + 8 * encLen n ∧ c'.WellFormed buf) ∧
    (∀ q c', qDecode buf c = .ok (q, c') → c'.pos = c.pos + 8 * (encLen q.name + 4) ∧ c'.WellFormed buf)

/-! ## Enumerations -/

/-- R101, R104, R107, R110: a code in the table decodes to its variant, any other is
`UnsupportedCode`. -/
def Obligations.CodesDecodeByTheirTables : Prop :=
  ∀ s : State,
    (∀ p ∈ recordTypeTable, s.args.code16.toNat = p.1 →
      exec .rtypeDecode s = .next (s.deliver (.ok (.rtype p.2)))) ∧
    ((s.args.code16.toNat = 0 ∨ (17 ≤ s.args.code16.toNat ∧ s.args.code16.toNat ≤ 27) ∨ 29 ≤ s.args.code16.toNat) →
      exec .rtypeDecode s = .next (s.raise .UnsupportedCode)) ∧
    (∀ p ∈ recordClassTable, s.args.code16.toNat = p.1 →
      exec .rclassDecode s = .next (s.deliver (.ok (.rclass p.2)))) ∧
    ((s.args.code16.toNat = 0 ∨ 5 ≤ s.args.code16.toNat) →
      exec .rclassDecode s = .next (s.raise .UnsupportedCode)) ∧
    (∀ p ∈ opcodeTable, s.args.code4.toNat = p.1 →
      exec .opcodeDecode s = .next (s.deliver (.ok (.opcode p.2)))) ∧
    (3 ≤ s.args.code4.toNat → exec .opcodeDecode s = .next (s.raise .UnsupportedCode)) ∧
    (∀ p ∈ responseCodeTable, s.args.code4.toNat = p.1 →
      exec .rcodeDecode s = .next (s.deliver (.ok (.rcode p.2)))) ∧
    (6 ≤ s.args.code4.toNat → exec .rcodeDecode s = .next (s.raise .UnsupportedCode))

/-- R102, R105, R108, R111: encoding a variant gives its code in the table, whatever the variant. -/
def Obligations.VariantsEncodeByTheirTables : Prop :=
  ∀ s : State,
    (∃ p ∈ recordTypeTable, p.2 = s.args.rtype ∧
      exec .rtypeEncode s = .next (s.deliver (.ok (.code16 (BitVec.ofNat 16 p.1))))) ∧
    (∃ p ∈ recordClassTable, p.2 = s.args.rclass ∧
      exec .rclassEncode s = .next (s.deliver (.ok (.code16 (BitVec.ofNat 16 p.1))))) ∧
    (∃ p ∈ opcodeTable, p.2 = s.args.opcode ∧
      exec .opcodeEncode s = .next (s.deliver (.ok (.code4 (BitVec.ofNat 4 p.1))))) ∧
    (∃ p ∈ responseCodeTable, p.2 = s.args.rcode ∧
      exec .rcodeEncode s = .next (s.deliver (.ok (.code4 (BitVec.ofNat 4 p.1)))))

/-- R103, R106, R109, R112: the bit pattern of a variant is its code's bits, most significant first. -/
def Obligations.VariantsHaveTheBitsOfTheirCodes : Prop :=
  ∀ s : State,
    (∃ p ∈ recordTypeTable, p.2 = s.args.rtype ∧ exec .rtypeBits s =
      .next ((s.setOut (numberBits 16 p.1)).deliver (.ok (.bits (numberBits 16 p.1))))) ∧
    (∃ p ∈ recordClassTable, p.2 = s.args.rclass ∧ exec .rclassBits s =
      .next ((s.setOut (numberBits 16 p.1)).deliver (.ok (.bits (numberBits 16 p.1))))) ∧
    (∃ p ∈ opcodeTable, p.2 = s.args.opcode ∧ exec .opcodeBits s =
      .next ((s.setOut (numberBits 4 p.1)).deliver (.ok (.bits (numberBits 4 p.1))))) ∧
    (∃ p ∈ responseCodeTable, p.2 = s.args.rcode ∧ exec .rcodeBits s =
      .next ((s.setOut (numberBits 4 p.1)).deliver (.ok (.bits (numberBits 4 p.1)))))

/-- R113: the round-trip laws of the four enumerations. -/
def Obligations.EnumerationsRoundTrip : Prop :=
  ((∀ v, rtypeDecode (rtypeEncode v) = .ok v) ∧ (∀ v, rclassDecode (rclassEncode v) = .ok v) ∧
    (∀ v, opcodeDecode (opcodeEncode v) = .ok v) ∧ (∀ v, rcodeDecode (rcodeEncode v) = .ok v)) ∧
  ((∀ k v, rtypeDecode k = .ok v → rtypeEncode v = k) ∧ (∀ k v, rclassDecode k = .ok v → rclassEncode v = k) ∧
    (∀ k v, opcodeDecode k = .ok v → opcodeEncode v = k) ∧ (∀ k v, rcodeDecode k = .ok v → rcodeEncode v = k)) ∧
  (Function.Injective rtypeEncode ∧ Function.Injective rclassEncode ∧
    Function.Injective opcodeEncode ∧ Function.Injective rcodeEncode) ∧
  ((∀ v, memRead (pack (rtypeBits v)) 0 16 = (rtypeEncode v).toNat) ∧
    (∀ v, memRead (pack (rclassBits v)) 0 16 = (rclassEncode v).toNat) ∧
    (∀ v, memRead (pack (opcodeBits v)) 0 4 = (opcodeEncode v).toNat) ∧
    (∀ v, memRead (pack (rcodeBits v)) 0 4 = (rcodeEncode v).toNat))

/-! ## MessageHeader -/

/-- R122: HDR_NEW. -/
def Obligations.HdrNewBuildsTheDefaultQuery : Prop :=
  ∀ s : State, exec .hdrNew s = .next (s.deliver (.ok (.hdr
    { id := s.args.id, qr := .Query, opcode := .Query, aa := false, tc := false, rd := true, ra := false,
      rcode := .NoError, qdcount := 1, ancount := 0, nscount := 0, arcount := 0 })))

/-- R124, R61, R62: HDR_ENCODE. -/
def Obligations.HdrEncodePacksTheLayout : Prop :=
  ∀ s : State, (bitsOf (headerBytes s.args.hdr)).length = 96 ∧
    exec .hdrEncode s = .next ((s.setOut (bitsOf (headerBytes s.args.hdr))).deliver
      (.ok (.bits (bitsOf (headerBytes s.args.hdr)))))

/-- R125: HDR_DECODE, its checks in their order and the fields it reads, at any bit offset. -/
def Obligations.HdrDecodeUnpacksTheLayout : Prop :=
  ∀ (s : State) (z op rc : Nat), s.args.cur.WellFormed s.args.buf →
    (8 * s.args.buf.length < s.args.cur.pos + 96 → exec .hdrDecode s = .next (s.raise .Truncated)) ∧
    (s.args.cur.pos + 96 ≤ 8 * s.args.buf.length →
      FieldIs s.args.buf (s.args.cur.pos + 25) 3 z →
      FieldIs s.args.buf (s.args.cur.pos + 17) 4 op →
      FieldIs s.args.buf (s.args.cur.pos + 28) 4 rc →
      (z ≠ 0 → exec .hdrDecode s = .next (s.raise .MalformedReserved)) ∧
      (z = 0 → 3 ≤ op ∨ 6 ≤ rc → exec .hdrDecode s = .next (s.raise .UnsupportedCode)) ∧
      (z = 0 → op < 3 → rc < 6 →
        ∃ h : Header,
          exec .hdrDecode s = .next (s.deliver (.ok (.hdrAt h
            ⟨(s.args.cur.pos + 96) / 8, (s.args.cur.pos + 96) % 8⟩))) ∧
          FieldIs s.args.buf s.args.cur.pos 16 h.id.toNat ∧
          h.qr = (if bitAt s.args.buf (s.args.cur.pos + 16) = true then .Response else .Query) ∧
          (op, h.opcode) ∈ opcodeTable ∧
          h.aa = bitAt s.args.buf (s.args.cur.pos + 21) ∧
          h.tc = bitAt s.args.buf (s.args.cur.pos + 22) ∧
          h.rd = bitAt s.args.buf (s.args.cur.pos + 23) ∧
          h.ra = bitAt s.args.buf (s.args.cur.pos + 24) ∧
          (rc, h.rcode) ∈ responseCodeTable ∧
          FieldIs s.args.buf (s.args.cur.pos + 32) 16 h.qdcount.toNat ∧
          FieldIs s.args.buf (s.args.cur.pos + 48) 16 h.ancount.toNat ∧
          FieldIs s.args.buf (s.args.cur.pos + 64) 16 h.nscount.toNat ∧
          FieldIs s.args.buf (s.args.cur.pos + 80) 16 h.arcount.toNat))

/-- R126: the round-trip laws of the header, and exactly which twelve bytes are a header. -/
def Obligations.HeadersRoundTrip : Prop :=
  (∀ h : Header, hdrDecode (pack (hdrEncode h)) Cursor.origin = .ok (h, ⟨12, 0⟩)) ∧
  (∀ (b : List Byte) (h : Header) (c : Cursor), b.length = 12 →
    hdrDecode b Cursor.origin = .ok (h, c) → pack (hdrEncode h) = b) ∧
  ∀ b : List Byte, b.length = 12 →
    ((∃ h c, hdrDecode b Cursor.origin = .ok (h, c)) ↔
      (b[3]?.getD 0).toNat / 16 % 8 = 0 ∧ (b[2]?.getD 0).toNat / 8 % 16 ≤ 2 ∧ (b[3]?.getD 0).toNat % 16 ≤ 5)

/-! ## DomainName -/

/-- R131: NAME_SPLIT. The parts hold no dot and, put together with dots, are the string again; the empty
string alone gives no label. -/
def Obligations.NameSplitCutsAtEveryDot : Prop :=
  ∀ s : State, ∃ n : Name,
    exec .nameSplit s = .next (s.deliver (.ok (.name n))) ∧
    (s.args.str = [] → n = []) ∧
    (s.args.str ≠ [] → n.length = s.args.str.count 0x2E + 1 ∧ (∀ l ∈ n, (0x2E : Byte) ∉ l) ∧
      [(0x2E : Byte)].intercalate n = s.args.str)

/-- R132, R133: NAME_ENCODE. Without an offending label the result is the name's bytes, however many they
are; otherwise the first offending label decides the error. -/
def Obligations.NameEncodeEmitsTheLabels : Prop :=
  ∀ s : State,
    (labelsWellFormed s.args.name = true →
      (nameBytes s.args.name).length = encLen s.args.name ∧
      exec .nameEncode s = .next ((s.setOut (bitsOf (nameBytes s.args.name))).deliver
        (.ok (.bits (bitsOf (nameBytes s.args.name)))))) ∧
    (∀ l, FirstBadLabel s.args.name l →
      (64 ≤ l.length → exec .nameEncode s = .next (s.raise .LabelTooLong)) ∧
      (l.length = 0 → exec .nameEncode s = .next (s.raise .EmptyLabel)))

/-- R134: NAME_DECODE, turn by turn, with no bound on the turns: a length byte 0 ends the name, 64 and
above fails, and 1 to 63 is a label in front of whatever the rest decodes to. -/
def Obligations.NameDecodeWalksTheLabels : Prop :=
  (∀ s : State, s.args.cur.WellFormed s.args.buf →
    (∀ n c, nameDecode s.args.buf s.args.cur = .ok (n, c) →
      exec .nameDecode s = .next (s.deliver (.ok (.nameAt n c)))) ∧
    (∀ e, nameDecode s.args.buf s.args.cur = .error e → exec .nameDecode s = .next (s.raise e))) ∧
  ∀ (buf : List Byte) (c : Cursor), c.WellFormed buf →
    (8 * buf.length < c.pos + 8 → nameDecode buf c = .error .Underrun) ∧
    ∀ len : Nat, c.pos + 8 ≤ 8 * buf.length → FieldIs buf c.pos 8 len →
      (len = 0 → nameDecode buf c = .ok ([], ⟨(c.pos + 8) / 8, (c.pos + 8) % 8⟩)) ∧
      (64 ≤ len → nameDecode buf c = .error .CompressionUnsupported) ∧
      (1 ≤ len → len ≤ 63 → 8 * buf.length < c.pos + 8 + 8 * len → nameDecode buf c = .error .Underrun) ∧
      (1 ≤ len → len ≤ 63 → c.pos + 8 + 8 * len ≤ 8 * buf.length →
        ∃ l : Label, l.length = len ∧
          (∀ j, j < len → FieldIs buf (c.pos + 8 + 8 * j) 8 (l[j]?.getD 0).toNat) ∧
          nameDecode buf c =
            match nameDecode buf ⟨(c.pos + 8 + 8 * len) / 8, (c.pos + 8 + 8 * len) % 8⟩ with
            | .ok (n, c') => .ok (l :: n, c')
            | .error e => .error e)

/-- R135: the round-trip laws of the name. -/
def Obligations.NamesRoundTrip : Prop :=
  (∀ n : Name, labelsWellFormed n = true →
    ∃ bits, nameEncode n = .ok bits ∧ nameDecode (pack bits) Cursor.origin = .ok (n, ⟨encLen n, 0⟩)) ∧
  (∀ (b : List Byte) (n : Name) (c : Cursor), nameDecode b Cursor.origin = .ok (n, c) →
    labelsWellFormed n = true ∧ c = ⟨encLen n, 0⟩ ∧
    ∃ bits, nameEncode n = .ok bits ∧ pack bits = b.take (encLen n)) ∧
  ∀ (b : List Byte) (c c' : Cursor) (n : Name), nameDecode b c = .ok (n, c') →
    ∀ l ∈ n, l ≠ [] ∧ l.length < 64

/-- R68: a length byte's three classes, and the decoder's action on each. That a length byte is presented
alone, on the labels read so far and the cursor behind it, is the model's (log entry 3). -/
def Obligations.LengthBytesByTheirClass : Prop :=
  (∀ b : Byte,
    (b.toNat = 0 → decode (.wire .len8 [b]) = .ok .lengthByteRoot) ∧
    (1 ≤ b.toNat → b.toNat ≤ 63 → decode (.wire .len8 [b]) = .ok (.lengthByteLabel (BitVec.ofNat 6 b.toNat))) ∧
    (64 ≤ b.toNat → ∃ i, decode (.wire .len8 [b]) = .ok i ∧
      ∀ s : State, exec i s = .next (s.raise .CompressionUnsupported))) ∧
  (∀ s : State, s.args.cur.WellFormed s.args.buf →
    exec .lengthByteRoot s = .next (s.deliver (.ok (.labelsAt s.args.name s.args.cur)))) ∧
  (∀ (s : State) (len : U6), s.args.cur.WellFormed s.args.buf → len ≠ 0 →
    (s.args.cur.pos + 8 * len.toNat ≤ 8 * s.args.buf.length →
      ∃ l : Label, l.length = len.toNat ∧
        (∀ j, j < len.toNat → FieldIs s.args.buf (s.args.cur.pos + 8 * j) 8 (l[j]?.getD 0).toNat) ∧
        exec (.lengthByteLabel len) s = .next (s.deliver (.ok (.labelsAt (s.args.name ++ [l])
          ⟨(s.args.cur.pos + 8 * len.toNat) / 8, (s.args.cur.pos + 8 * len.toNat) % 8⟩)))) ∧
    (8 * s.args.buf.length < s.args.cur.pos + 8 * len.toNat →
      exec (.lengthByteLabel len) s = .next (s.raise .Underrun))) ∧
  ∀ (s : State) (x : U6),
    exec (.lengthByteReserved01 x) s = .next (s.raise .CompressionUnsupported) ∧
    exec (.lengthByteReserved10 x) s = .next (s.raise .CompressionUnsupported) ∧
    exec (.lengthByteReserved11 x) s = .next (s.raise .CompressionUnsupported)

/-! ## Question -/

/-- R141: Q_ENCODE. -/
def Obligations.QEncodeEmitsNameTypeClass : Prop :=
  ∀ s : State,
    (labelsWellFormed s.args.q.name = true →
      (questionBytes s.args.q).length = encLen s.args.q.name + 4 ∧
      exec .qEncode s = .next ((s.setOut (bitsOf (questionBytes s.args.q))).deliver
        (.ok (.bits (bitsOf (questionBytes s.args.q)))))) ∧
    (∀ l, FirstBadLabel s.args.q.name l →
      (64 ≤ l.length → exec .qEncode s = .next (s.raise .LabelTooLong)) ∧
      (l.length = 0 → exec .qEncode s = .next (s.raise .EmptyLabel)))

/-- R142: Q_DECODE, strictly in sequence: the name, the type read and checked, the class read and
checked. -/
def Obligations.QDecodeReadsNameTypeClass : Prop :=
  ∀ s : State, s.args.cur.WellFormed s.args.buf →
    (∀ e, nameDecode s.args.buf s.args.cur = .error e → exec .qDecode s = .next (s.raise e)) ∧
    ∀ (n : Name) (c : Cursor), nameDecode s.args.buf s.args.cur = .ok (n, c) →
      (8 * s.args.buf.length < c.pos + 16 → exec .qDecode s = .next (s.raise .Underrun)) ∧
      ∀ t : Nat, c.pos + 16 ≤ 8 * s.args.buf.length → FieldIs s.args.buf c.pos 16 t →
        ((∀ p ∈ recordTypeTable, p.1 ≠ t) → exec .qDecode s = .next (s.raise .UnsupportedCode)) ∧
        ∀ qtype, (t, qtype) ∈ recordTypeTable →
          (8 * s.args.buf.length < c.pos + 32 → exec .qDecode s = .next (s.raise .Underrun)) ∧
          ∀ k : Nat, c.pos + 32 ≤ 8 * s.args.buf.length → FieldIs s.args.buf (c.pos + 16) 16 k →
            ((∀ p ∈ recordClassTable, p.1 ≠ k) → exec .qDecode s = .next (s.raise .UnsupportedCode)) ∧
            ∀ qclass, (k, qclass) ∈ recordClassTable →
              exec .qDecode s = .next (s.deliver (.ok (.questionAt ⟨n, qtype, qclass⟩
                ⟨(c.pos + 32) / 8, (c.pos + 32) % 8⟩)))

/-- R143: the round-trip laws of the question. -/
def Obligations.QuestionsRoundTrip : Prop :=
  (∀ q : Question, labelsWellFormed q.name = true →
    ∃ bits, qEncode q = .ok bits ∧ qDecode (pack bits) Cursor.origin = .ok (q, ⟨encLen q.name + 4, 0⟩)) ∧
  ∀ (b : List Byte) (q : Question) (k : Nat), qDecode b Cursor.origin = .ok (q, ⟨k, 0⟩) →
    ∃ bits, qEncode q = .ok bits ∧ pack bits = b.take k

/-! ## Message -/

/-- R151: MSG_BUILD, its checks in their order and the message it builds. -/
def Obligations.MsgBuildValidatesThenBuilds : Prop :=
  ∀ s : State,
    (255 < encLen (nameSplit s.args.str) → exec .msgBuild s = .next (s.raise .NameTooLong)) ∧
    (encLen (nameSplit s.args.str) ≤ 255 →
      (∀ l, FirstBadLabel (nameSplit s.args.str) l →
        (63 < l.length → exec .msgBuild s = .next (s.raise .LabelTooLong)) ∧
        (l.length = 0 → exec .msgBuild s = .next (s.raise .EmptyLabel))) ∧
      (labelsWellFormed (nameSplit s.args.str) = true →
        exec .msgBuild s = .next (s.deliver (.ok (.msg
          { hdr := { id := s.args.id, qr := .Query, opcode := .Query, aa := false, tc := false, rd := true,
                     ra := false, rcode := .NoError, qdcount := 1, ancount := 0, nscount := 0, arcount := 0 }
            qs := [⟨nameSplit s.args.str, s.args.rtype, s.args.rclass⟩] })))))

/-- R152: the boundaries of MSG_BUILD by the string it is given. A string of 254 bytes or more is
`NameTooLong`, a shorter one never; without a dot, 64 to 253 bytes are `LabelTooLong` and up to 63
build; a dot at either end of a string of up to 63 bytes, or beside another, is an empty label. -/
def Obligations.MsgBuildBoundaries : Prop :=
  ∀ s : State,
    (s.args.str ≠ [] → encLen (nameSplit s.args.str) = s.args.str.length + 2) ∧
    (254 ≤ s.args.str.length ↔ exec .msgBuild s = .next (s.raise .NameTooLong)) ∧
    ((0x2E : Byte) ∉ s.args.str → 64 ≤ s.args.str.length → s.args.str.length ≤ 253 →
      exec .msgBuild s = .next (s.raise .LabelTooLong)) ∧
    ((0x2E : Byte) ∉ s.args.str → 1 ≤ s.args.str.length → s.args.str.length ≤ 63 →
      exec .msgBuild s = .next (s.deliver (.ok (.msg
        ⟨hdrNew s.args.id, [⟨[s.args.str], s.args.rtype, s.args.rclass⟩]⟩)))) ∧
    (s.args.str = [] → exec .msgBuild s = .next (s.deliver (.ok (.msg
      ⟨hdrNew s.args.id, [⟨[], s.args.rtype, s.args.rclass⟩]⟩)))) ∧
    (s.args.str.length ≤ 63 →
      (∃ a b : List Byte, s.args.str = 0x2E :: b ∨ s.args.str = a ++ [0x2E] ∨ s.args.str = a ++ 0x2E :: 0x2E :: b) →
      exec .msgBuild s = .next (s.raise .EmptyLabel))

/-- R153: MSG_ENCODE. The header as the record holds it and every question in order, or the error of the
first offending label. -/
def Obligations.MsgEncodeConcatenates : Prop :=
  ∀ s : State,
    ((∀ q ∈ s.args.msg.qs, labelsWellFormed q.name = true) →
      (messageBytes s.args.msg).length = 12 + (s.args.msg.qs.map fun q => encLen q.name + 4).sum ∧
      exec .msgEncode s = .next ((s.setOut (bitsOf (messageBytes s.args.msg))).deliver
        (.ok (.bytes (messageBytes s.args.msg))))) ∧
    (∀ before q after l, s.args.msg.qs = before ++ q :: after →
      (∀ q' ∈ before, labelsWellFormed q'.name = true) → FirstBadLabel q.name l →
      (64 ≤ l.length → exec .msgEncode s = .next (s.raise .LabelTooLong)) ∧
      (l.length = 0 → exec .msgEncode s = .next (s.raise .EmptyLabel)))

/-- R155: MSG_DECODE. The header at the origin, then exactly QDCOUNT questions, each where the one before
it ended; the first failure is the result. -/
def Obligations.MsgDecodeReadsQdcountQuestions : Prop :=
  ∀ s : State,
    (∀ e, hdrDecode s.args.buf Cursor.origin = .error e → exec .msgDecode s = .next (s.raise e)) ∧
    ∀ (h : Header) (qs : List Question) (cs : List Cursor),
      hdrDecode s.args.buf Cursor.origin = .ok (h, cs[0]?.getD Cursor.origin) →
      cs.length = qs.length + 1 →
      (∀ j, j < qs.length → ∃ q, qs[j]? = some q ∧
        qDecode s.args.buf (cs[j]?.getD Cursor.origin) = .ok (q, cs[j + 1]?.getD Cursor.origin)) →
      (qs.length = h.qdcount.toNat →
        exec .msgDecode s = .next (s.deliver (.ok (.msg ⟨h, qs⟩)))) ∧
      (qs.length < h.qdcount.toNat →
        ∀ e, qDecode s.args.buf (cs[qs.length]?.getD Cursor.origin) = .error e →
          exec .msgDecode s = .next (s.raise e))

/-- R156: the round-trip laws of the message. -/
def Obligations.MessagesRoundTrip : Prop :=
  (∀ m : Message, messageWellFormed m = true → ∃ b, msgEncode m = .ok b ∧ msgDecode b = .ok m) ∧
  (∀ (id : U16) (str : List Byte) (t : RecordType) (k : RecordClass) (m : Message),
    msgBuild id str t k = .ok m → ∃ b, msgEncode m = .ok b ∧ msgDecode b = .ok m) ∧
  (∀ (b : List Byte) (m : Message), msgDecode b = .ok m →
    msgEncode m = .ok (b.take (12 + (m.qs.map fun q => encLen q.name + 4).sum))) ∧
  ∀ m : Message, (∀ q ∈ m.qs, labelsWellFormed q.name = true) → m.hdr.qdcount.toNat ≠ m.qs.length →
    ∃ b, msgEncode m = .ok b ∧ ∀ m', msgDecode b = .ok m' → m' ≠ m

/-- A message MSG_BUILD returns encodes to at most 12 + 255 + 4 bytes (spec/20_memory.md R46). -/
def Obligations.BuiltMessagesAreShort : Prop :=
  ∀ (id : U16) (str : List Byte) (t : RecordType) (k : RecordClass) (m : Message),
    msgBuild id str t k = .ok m →
      m.hdr.qdcount.toNat = m.qs.length ∧ ∃ b, msgEncode m = .ok b ∧ 17 ≤ b.length ∧ b.length ≤ 271

/-- Bytes behind what a decoder reads change nothing (R134 (e), R142 (d), R155). -/
def Obligations.BytesBehindAreNotRead : Prop :=
  ∀ (b more : List Byte) (c : Cursor), c.WellFormed b →
    (∀ h c', hdrDecode b c = .ok (h, c') → hdrDecode (b ++ more) c = .ok (h, c')) ∧
    (∀ n c', nameDecode b c = .ok (n, c') → nameDecode (b ++ more) c = .ok (n, c')) ∧
    (∀ q c', qDecode b c = .ok (q, c') → qDecode (b ++ more) c = .ok (q, c')) ∧
    (∀ m, msgDecode b = .ok m → msgDecode (b ++ more) = .ok m)

/-! ## Errors -/

/-- R160: which of the 27 operations raises which error, exactly: an operation raises an error on some
operands if and only if the table says so; and the class of each error. -/
def Obligations.OperationsRaiseTheirErrorsOnly : Prop :=
  (∀ (e : Err) (i : Instr), i ∈ opselTable.map Prod.snd →
    ((∃ s : State, exec i s = .next (s.raise e)) ↔ i ∈ raisedBy e)) ∧
  [Err.LabelTooLong, .NameTooLong, .EmptyLabel].all (errClass · = .validation) = true ∧
  [Err.Underrun, .Truncated].all (errClass · = .shortage) = true ∧
  errClass .UnsupportedCode = .unsupportedCode ∧ errClass .MalformedReserved = .malformedReserved ∧
  errClass .CompressionUnsupported = .compressionUnsupported

/-- R161: the STATUS codes; 0 is `Ok` alone and 9 to 15 are never produced. -/
def Obligations.StatusCodes : Prop :=
  (errStatus .Underrun = 1 ∧ errStatus .Truncated = 2 ∧ errStatus .MalformedReserved = 3 ∧
    errStatus .UnsupportedCode = 4 ∧ errStatus .CompressionUnsupported = 5 ∧ errStatus .LabelTooLong = 6 ∧
    errStatus .NameTooLong = 7 ∧ errStatus .EmptyLabel = 8) ∧
  (∀ r : Response, responseStatus r = 0 ↔ ∃ v, r = .ok v) ∧
  ∀ r : Response, (responseStatus r).toNat ≤ 8

/-! ## Encodings -/

/-- R80, R81: the 5-bit OPSEL codes select the 27 operations, and the others select nothing. -/
def Obligations.OpselSelectsTheOperation : Prop :=
  (∀ p ∈ opselTable, decode (.op (BitVec.ofNat 5 p.1)) = .ok p.2) ∧
  ∀ k : BitVec 5, (∀ p ∈ opselTable, p.1 ≠ k.toNat) → decode (.op k) = .error .unknownOpsel

/-- Words written out from the spec's encodings decode to what they stand for. How a word of the table is
numbered is the model's choice (log entry 4), and so are the format selectors and the place of a 4-bit
code in the top half of its byte (log entry 3). -/
def Obligations.WrittenWordsDecode : Prop :=
  decodeTableWord 8 0b00000001 = some .take ∧
  decodeTableWord 8 0b00011011 = some .msgDecode ∧
  decodeTableWord 8 0b11000000 = some (.lengthByteReserved11 0) ∧
  decodeTableWord 16 0b0000000000011100 = some .recordTypeAAAA ∧
  decode (.wire .rclass16 [0b00000000, 0b00000011]) = .ok .recordClassCH ∧
  decode (.wire .opcode4 [0b00100000]) = .ok .opcodeStatus ∧
  decode (.wire .rcode4 [0b01010000]) = .ok .responseCodeRefused ∧
  decode (.wire .name [0x01, 0x61, 0x00]) = .ok (.name [[0x61]]) ∧
  decode (.wire .question [0x01, 0x61, 0x00, 0x00, 0x1c, 0x00, 0x01]) = .ok (.question ⟨[[0x61]], .AAAA, .IN⟩)

/-- Every well-formed instruction is the one its encoding decodes to: no field of a header, no byte
of a label, no code is lost. That an element is a request of its own, with its format's selector, is the
model's choice (log entry 3). -/
def Obligations.EncodeThenDecode : Prop :=
  ∀ i : Instr, i.WellFormed = true → decode (encode i) = .ok i

/-- The decoder yields only well-formed instructions. That an element is a request of its own is the
model's choice (log entry 3). -/
def Obligations.DecodeYieldsWellFormed : Prop :=
  ∀ (r : Request) (i : Instr), decode r = .ok i → i.WellFormed = true

/-- An element of a wire format delivers the record it encodes (R61, R63 to R66). That it is presented
alone is the model's (log entry 3). -/
def Obligations.ElementsDeliverTheirRecords : Prop :=
  ∀ (s : State) (h : Header) (l : Label) (n : Name) (q : Question) (m : Message),
    exec (.header h) s = .next (s.deliver (.ok (.hdr h))) ∧
    exec (.label l) s = .next (s.deliver (.ok (.label l))) ∧
    exec (.name n) s = .next (s.deliver (.ok (.name n))) ∧
    exec (.question q) s = .next (s.deliver (.ok (.question q))) ∧
    exec (.message m) s = .next (s.deliver (.ok (.msg m)))

/-- A wire code of an enumeration delivers its variant (R69 to R72). That it is presented alone is the
model's (log entry 3). -/
def Obligations.CodesDeliverTheirVariants : Prop :=
  ∀ (s : State), ∀ p ∈ codeRows, exec p.1 s = .next (s.deliver (.ok p.2))
end

