-- ==== Sys2Proof/Laws/Bits.lean ====
section
/-!
SUPPORT. The laws of the bit primitives: the bits of a read, of an emitted value and of packed bytes, and
the positions of cursors.
-/

namespace Sys2Proof

@[simp] theorem Cursor.pos_ofPos (p : Nat) : (Cursor.ofPos p).pos = p := by
  simp only [Cursor.pos, Cursor.ofPos]; omega

@[simp] theorem Cursor.pos_origin : Cursor.origin.pos = 0 := rfl

/-- A position has one canonical cursor. -/
theorem Cursor.ofPos_pos (c : Cursor) (h : c.bit ≤ 7) : Cursor.ofPos c.pos = c := by
  cases c with
  | mk byte bit =>
    simp only [Cursor.pos, Cursor.ofPos, Cursor.mk.injEq]
    simp only at h
    omega

theorem Cursor.ofPos_wellFormed {p : Nat} {buf : List Byte} (h : p ≤ 8 * buf.length) :
    (Cursor.ofPos p).WellFormed buf :=
  ⟨by simp only [Cursor.ofPos]; omega, by simpa using h⟩

@[simp] theorem Cursor.ofPos_bytes (k : Nat) : Cursor.ofPos (8 * k) = ⟨k, 0⟩ := by
  simp [Cursor.ofPos]

theorem Cursor.origin_wellFormed (buf : List Byte) : Cursor.origin.WellFormed buf :=
  ⟨Nat.zero_le _, by simp⟩

end Sys2Proof

namespace Sys2Proof.Machine

/-! ## The value of a bit list -/

/-- The weighted sum by which the spec gives a field's value, of any bits (R15). -/
theorem weightedSum_succ (f : Nat → Bool) (n : Nat) :
    ((List.range (n + 1)).map fun k => (f k).toNat * 2 ^ (n + 1 - 1 - k)).sum
      = 2 * ((List.range n).map fun k => (f k).toNat * 2 ^ (n - 1 - k)).sum + (f n).toNat := by
  rw [List.range_succ, List.map_append, List.sum_append]
  simp only [List.map_cons, List.map_nil, List.sum_cons, List.sum_nil, Nat.add_zero,
    Nat.add_sub_cancel, Nat.sub_self, pow_zero, Nat.mul_one]
  congr 1
  rw [← List.sum_map_mul_left]
  congr 1
  apply List.map_congr_left
  intro k hk
  have hk : k < n := List.mem_range.mp hk
  have hp : 2 ^ (n - k) = 2 * 2 ^ (n - 1 - k) := by
    rw [← pow_succ']; congr 1; omega
  rw [hp]; ring

theorem weightedSum_lt (f : Nat → Bool) (n : Nat) :
    ((List.range n).map fun k => (f k).toNat * 2 ^ (n - 1 - k)).sum < 2 ^ n := by
  induction n with
  | zero => simp
  | succ n ih =>
    rw [weightedSum_succ, pow_succ]
    have := Bool.toNat_lt (f n)
    omega

theorem testBit_weightedSum (f : Nat → Bool) (n k : Nat) (h : k < n) :
    (((List.range n).map fun k => (f k).toNat * 2 ^ (n - 1 - k)).sum).testBit (n - 1 - k) = f k := by
  induction n with
  | zero => omega
  | succ n ih =>
    rw [weightedSum_succ]
    by_cases hk : k = n
    · subst hk
      have : k + 1 - 1 - k = 0 := by omega
      rw [this, Nat.testBit_zero]
      cases f k <;> simp
    · have hk' : k < n := by omega
      have : n + 1 - 1 - k = (n - 1 - k) + 1 := by omega
      rw [this, Nat.testBit_add_one]
      have : (2 * ((List.range n).map fun k => (f k).toNat * 2 ^ (n - 1 - k)).sum + (f n).toNat) / 2
          = ((List.range n).map fun k => (f k).toNat * 2 ^ (n - 1 - k)).sum := by
        have := Bool.toNat_lt (f n)
        omega
      rw [this]
      exact ih hk'

/-- Two numbers below `2^n` with the same `n` bits are equal. -/
theorem eq_of_field_bits {a b n : Nat} (ha : a < 2 ^ n) (hb : b < 2 ^ n)
    (h : ∀ k, k < n → a.testBit (n - 1 - k) = b.testBit (n - 1 - k)) : a = b := by
  apply Nat.eq_of_testBit_eq
  intro i
  by_cases hi : i < n
  · have := h (n - 1 - i) (by omega)
    rwa [show n - 1 - (n - 1 - i) = i by omega] at this
  · have hp : 2 ^ n ≤ 2 ^ i := Nat.pow_le_pow_right (by decide) (by omega)
    rw [Nat.testBit_eq_false_of_lt (by omega), Nat.testBit_eq_false_of_lt (by omega)]

/-! ## MemRead -/

theorem memRead_lt (buf : List Byte) (p n : Nat) : memRead buf p n < 2 ^ n :=
  weightedSum_lt _ n

/-- Bit `n-1-k` of a read is stream bit `p+k` (R15, R40). -/
theorem testBit_memRead (buf : List Byte) (p n k : Nat) (h : k < n) :
    (memRead buf p n).testBit (n - 1 - k) = streamBit buf (p + k) :=
  testBit_weightedSum (fun k => streamBit buf (p + k)) n k h

/-- A read depends on the bits it reads and on nothing else. -/
theorem memRead_congr {buf buf' : List Byte} {p p' n : Nat}
    (h : ∀ k, k < n → streamBit buf (p + k) = streamBit buf' (p' + k)) :
    memRead buf p n = memRead buf' p' n := by
  unfold memRead
  congr 1
  apply List.map_congr_left
  intro k hk
  rw [h k (List.mem_range.mp hk)]

/-- A read is the value whose bits are the stream bits, and no other (R15). -/
theorem memRead_unique {buf : List Byte} {p n v : Nat} (hv : v < 2 ^ n)
    (h : ∀ k, k < n → v.testBit (n - 1 - k) = streamBit buf (p + k)) : memRead buf p n = v := by
  apply eq_of_field_bits (memRead_lt buf p n) hv
  intro k hk
  rw [testBit_memRead buf p n k hk, h k hk]

@[simp] theorem memRead_one (buf : List Byte) (p : Nat) :
    memRead buf p 1 = (streamBit buf p).toNat := by
  simp [memRead]

/-- Bytes behind the end change no bit before it. -/
theorem streamBit_append (buf more : List Byte) (k : Nat) (h : k < 8 * buf.length) :
    streamBit (buf ++ more) k = streamBit buf k := by
  unfold streamBit
  rw [List.getElem?_append_left (by omega)]

/-! ## Emitting -/

@[simp] theorem bitsN_length {n : Nat} (v : BitVec n) : (bitsN v).length = n := by
  simp [bitsN]

@[simp] theorem emit_length (out : List Bool) {n : Nat} (v : BitVec n) :
    (emit out v).length = out.length + n := by
  simp [emit]

theorem bitsN_getElem? {n : Nat} (v : BitVec n) (k : Nat) (h : k < n) :
    (bitsN v)[k]? = some (v.toNat.testBit (n - 1 - k)) := by
  simp [bitsN, h, BitVec.getMsbD, BitVec.getLsbD]

/-! ## Packing -/

@[simp] theorem pack_length (s : List Bool) : (pack s).length = (s.length + 7) / 8 := by
  simp [pack]

/-- Bit `7 - i` of a packed byte (R154). -/
theorem packByte_getMsbD (s : List Bool) (j i : Nat) (h : i < 8) :
    (packByte s j).getMsbD i = s.getD (8 * j + i) false := by
  have h1 := testBit_weightedSum (fun i => s.getD (8 * j + i) false) 8 i h
  have h2 := weightedSum_lt (fun i => s.getD (8 * j + i) false) 8
  simp only [packByte, BitVec.getMsbD, BitVec.getLsbD, BitVec.toNat_ofNat, h, decide_true,
    Bool.true_and]
  rw [Nat.mod_eq_of_lt h2]
  exact h1

/-- The bits of packed bytes are the bits packed, and 0 behind them (R53, R154). -/
theorem streamBit_pack (s : List Bool) (k : Nat) : streamBit (pack s) k = s.getD k false := by
  unfold streamBit
  by_cases hk : k / 8 < (s.length + 7) / 8
  · have : (pack s)[k / 8]? = some (packByte s (k / 8)) := by
      simp [pack, hk]
    rw [this]
    simp only [Option.getD_some]
    rw [packByte_getMsbD s _ _ (Nat.mod_lt _ (by decide))]
    congr 1; omega
  · have h1 : (pack s)[k / 8]? = none := by
      rw [List.getElem?_eq_none_iff]; simp; omega
    have h2 : s.getD k false = false := by
      rw [List.getD_eq_getElem?_getD, List.getElem?_eq_none_iff.mpr (by omega)]; rfl
    rw [h1, h2]; simp

/-- A field read from packed bits where a value was emitted is that value (R53). -/
theorem memRead_pack_emit (before after : List Bool) {n : Nat} (v : BitVec n) :
    memRead (pack (before ++ bitsN v ++ after)) before.length n = v.toNat := by
  apply memRead_unique v.isLt
  intro k hk
  rw [streamBit_pack, List.getD_eq_getElem?_getD, List.append_assoc,
    List.getElem?_append_right (by omega), List.getElem?_append_left (by simpa using by omega)]
  rw [show before.length + k - before.length = k by omega, bitsN_getElem? v k hk]
  rfl

end Sys2Proof.Machine
end

