-- ==== Sys2Proof/Laws/State.lean ====
section
/-!
SUPPORT. One lemma for each field and each update of the state, and what each shared operation can
answer, so that no later proof unfolds a record update or an operation.
-/

namespace Sys2Proof.Machine

@[simp] theorem begin_pending (s : State) (t : Transaction) (rest : List Transaction) :
    (s.begin t rest).pending = rest := rfl
@[simp] theorem begin_args (s : State) (t : Transaction) (rest : List Transaction) :
    (s.begin t rest).args = t.args := rfl
@[simp] theorem begin_out (s : State) (t : Transaction) (rest : List Transaction) :
    (s.begin t rest).out = [] := rfl
@[simp] theorem begin_results (s : State) (t : Transaction) (rest : List Transaction) :
    (s.begin t rest).results = s.results := rfl

@[simp] theorem deliver_pending (s : State) (r : Response) : (s.deliver r).pending = s.pending := rfl
@[simp] theorem deliver_args (s : State) (r : Response) : (s.deliver r).args = s.args := rfl
@[simp] theorem deliver_out (s : State) (r : Response) : (s.deliver r).out = s.out := rfl
@[simp] theorem deliver_results (s : State) (r : Response) :
    (s.deliver r).results = s.results ++ [r] := rfl

@[simp] theorem raise_pending (s : State) (e : Err) : (s.raise e).pending = s.pending := rfl
@[simp] theorem raise_args (s : State) (e : Err) : (s.raise e).args = s.args := rfl
@[simp] theorem raise_out (s : State) (e : Err) : (s.raise e).out = s.out := rfl
@[simp] theorem raise_results (s : State) (e : Err) :
    (s.raise e).results = s.results ++ [.err e] := rfl

@[simp] theorem setOut_pending (s : State) (b : List Bool) : (s.setOut b).pending = s.pending := rfl
@[simp] theorem setOut_args (s : State) (b : List Bool) : (s.setOut b).args = s.args := rfl
@[simp] theorem setOut_out (s : State) (b : List Bool) : (s.setOut b).out = b := rfl
@[simp] theorem setOut_results (s : State) (b : List Bool) : (s.setOut b).results = s.results := rfl

/-! What the shared operations answer. -/

@[simp] theorem conclude_ok (s : State) (v : Result) :
    s.conclude (.ok v) = .next (s.deliver (.ok v)) := rfl

@[simp] theorem conclude_error (s : State) (e : Err) :
    s.conclude (.error e) = .next (s.raise e) := rfl

@[simp] theorem concludeOut_ok (s : State) (f : List Bool → Result) (b : List Bool) :
    s.concludeOut f (.ok b) = .next ((s.setOut b).deliver (.ok (f b))) := rfl

@[simp] theorem concludeOut_error (s : State) (f : List Bool → Result) (e : Err) :
    s.concludeOut f (.error e) = .next (s.raise e) := rfl

/-- A transaction that ends by `conclude` always takes a step: its value or its error is delivered. -/
theorem conclude_cases (s : State) (r : Except Err Result) :
    (∃ v, r = .ok v ∧ s.conclude r = .next (s.deliver (.ok v))) ∨
    (∃ e, r = .error e ∧ s.conclude r = .next (s.raise e)) := by
  cases r with
  | ok v => exact .inl ⟨v, rfl, rfl⟩
  | error e => exact .inr ⟨e, rfl, rfl⟩

/-- An encoding transaction always takes a step: its bits are in `OUT` and its result delivered, or its
error is. -/
theorem concludeOut_cases (s : State) (f : List Bool → Result) (r : Except Err (List Bool)) :
    (∃ b, r = .ok b ∧ s.concludeOut f r = .next ((s.setOut b).deliver (.ok (f b)))) ∨
    (∃ e, r = .error e ∧ s.concludeOut f r = .next (s.raise e)) := by
  cases r with
  | ok b => exact .inl ⟨b, rfl, rfl⟩
  | error e => exact .inr ⟨e, rfl, rfl⟩

/-- A cursor check passes on a well-formed cursor. -/
@[simp] theorem withCursor_of_wellFormed (s : State) (k : Step)
    (h : s.args.cur.WellFormed s.args.buf) : s.withCursor k = k := if_pos h

/-- A cursor check refuses any other cursor. -/
theorem withCursor_of_illFormed (s : State) (k : Step)
    (h : ¬ s.args.cur.WellFormed s.args.buf) : s.withCursor k = .refused .illFormedCursor := if_neg h

/-- A step behind a cursor check has passed it. -/
theorem withCursor_next {s s' : State} {k : Step} (h : s.withCursor k = .next s') :
    s.args.cur.WellFormed s.args.buf ∧ k = .next s' := by
  by_cases hc : s.args.cur.WellFormed s.args.buf
  · exact ⟨hc, by rwa [withCursor_of_wellFormed s k hc] at h⟩
  · rw [withCursor_of_illFormed s k hc] at h; cases h

/-- A width check passes on a width of 1 to 16. -/
theorem withWidth_of_inContract (s : State) (k : Step) (h1 : 1 ≤ s.args.n) (h2 : s.args.n ≤ 16) :
    s.withWidth k = k := if_pos ⟨h1, h2⟩

/-- A width check refuses any other width. -/
theorem withWidth_of_outOfContract (s : State) (k : Step) (h : ¬ (1 ≤ s.args.n ∧ s.args.n ≤ 16)) :
    s.withWidth k = .refused .widthOutOfContract := if_neg h

/-- A step behind a width check has passed it. -/
theorem withWidth_next {s s' : State} {k : Step} (h : s.withWidth k = .next s') :
    (1 ≤ s.args.n ∧ s.args.n ≤ 16) ∧ k = .next s' := by
  by_cases hc : 1 ≤ s.args.n ∧ s.args.n ≤ 16
  · exact ⟨hc, by rwa [withWidth_of_inContract s k hc.1 hc.2] at h⟩
  · rw [withWidth_of_outOfContract s k hc] at h; cases h

end Sys2Proof.Machine
end

