-- ==== Sys2Proof/Laws/BitCursor.lean ====
section
/-!
SUPPORT. The law of TAKE and of the reads derived from it: each either has its bits and advances by as many,
or is `Underrun`.
-/

namespace Sys2Proof.Machine

theorem take_of_le {buf : List Byte} {c : Cursor} {n : Nat} (h : c.pos + n ≤ 8 * buf.length) :
    take buf c n = .ok (Cursor.ofPos (c.pos + n), memRead buf c.pos n) :=
  if_neg (by omega)

theorem take_of_lt {buf : List Byte} {c : Cursor} {n : Nat} (hn : 1 ≤ n)
    (h : 8 * buf.length < c.pos + n) : take buf c n = .error .Underrun :=
  if_pos (by omega)

/-- Everything TAKE can answer (R90). -/
theorem take_cases (buf : List Byte) (c : Cursor) (n : Nat) (hn : 1 ≤ n) :
    (c.pos + n ≤ 8 * buf.length ∧
      take buf c n = .ok (Cursor.ofPos (c.pos + n), memRead buf c.pos n)) ∨
    (8 * buf.length < c.pos + n ∧ take buf c n = .error .Underrun) := by
  by_cases h : c.pos + n ≤ 8 * buf.length
  · exact .inl ⟨h, take_of_le h⟩
  · exact .inr ⟨by omega, take_of_lt hn (by omega)⟩

theorem takeBit_of_le {buf : List Byte} {c : Cursor} (h : c.pos + 1 ≤ 8 * buf.length) :
    takeBit buf c = .ok (Cursor.ofPos (c.pos + 1), streamBit buf c.pos) := by
  simp only [takeBit, take_of_le h, bind, Except.bind, pure, Except.pure, memRead_one]
  cases streamBit buf c.pos <;> rfl

theorem takeBit_of_lt {buf : List Byte} {c : Cursor} (h : 8 * buf.length < c.pos + 1) :
    takeBit buf c = .error .Underrun := by
  simp only [takeBit, take_of_lt (Nat.le_refl 1) h, bind, Except.bind]

theorem takeNibble_of_le {buf : List Byte} {c : Cursor} (h : c.pos + 4 ≤ 8 * buf.length) :
    takeNibble buf c = .ok (Cursor.ofPos (c.pos + 4), BitVec.ofNat 4 (memRead buf c.pos 4)) := by
  simp only [takeNibble, take_of_le h, bind, Except.bind, pure, Except.pure]

theorem takeNibble_of_lt {buf : List Byte} {c : Cursor} (h : 8 * buf.length < c.pos + 4) :
    takeNibble buf c = .error .Underrun := by
  simp only [takeNibble, take_of_lt (by decide : 1 ≤ 4) h, bind, Except.bind]

theorem takeU16_of_le {buf : List Byte} {c : Cursor} (h : c.pos + 16 ≤ 8 * buf.length) :
    takeU16 buf c = .ok (Cursor.ofPos (c.pos + 16), BitVec.ofNat 16 (memRead buf c.pos 16)) := by
  simp only [takeU16, take_of_le h, bind, Except.bind, pure, Except.pure]

theorem takeU16_of_lt {buf : List Byte} {c : Cursor} (h : 8 * buf.length < c.pos + 16) :
    takeU16 buf c = .error .Underrun := by
  simp only [takeU16, take_of_lt (by decide : 1 ≤ 16) h, bind, Except.bind]

theorem takeByte_of_le {buf : List Byte} {c : Cursor} (h : c.pos + 8 ≤ 8 * buf.length) :
    takeByte buf c = .ok (Cursor.ofPos (c.pos + 8), BitVec.ofNat 8 (memRead buf c.pos 8)) := by
  simp only [takeByte, take_of_le h, bind, Except.bind, pure, Except.pure]

theorem takeByte_of_lt {buf : List Byte} {c : Cursor} (h : 8 * buf.length < c.pos + 8) :
    takeByte buf c = .error .Underrun := by
  simp only [takeByte, take_of_lt (by decide : 1 ≤ 8) h, bind, Except.bind]

/-- The value a read of `n` bits delivers is the number read (its type holds it, R67). -/
@[simp] theorem toNat_ofNat_memRead (buf : List Byte) (p n : Nat) :
    (BitVec.ofNat n (memRead buf p n)).toNat = memRead buf p n := by
  rw [BitVec.toNat_ofNat, Nat.mod_eq_of_lt (memRead_lt buf p n)]

end Sys2Proof.Machine
end

