-- ==== Sys2Proof/Laws/DomainName.lean ====
section
/-!
SUPPORT. The laws of the label codec: what the encoder emits and when it fails, what one label read
answers, and that the decoder's bound on its turns is never used up, so that NAME_DECODE is the
spec's unbounded loop.
-/

namespace Sys2Proof.Machine

theorem labelWellFormed_iff (l : Label) : labelWellFormed l = true ↔ 1 ≤ l.length ∧ l.length ≤ 63 :=
  (Bool.and_eq_true_iff).trans (and_congr decide_eq_true_iff decide_eq_true_iff)

theorem labelsWellFormed_cons (l : Label) (n : Name) :
    labelsWellFormed (l :: n) = true ↔ labelWellFormed l = true ∧ labelsWellFormed n = true := by
  simp [labelsWellFormed]

@[simp] theorem encLen_nil : encLen [] = 1 := rfl

@[simp] theorem encLen_cons (l : Label) (n : Name) : encLen (l :: n) = encLen n + (1 + l.length) := by
  simp [encLen]; omega

/-! ## The encoder -/

/-- Emitting a label's bytes appends their bits. -/
theorem emitBytes_eq (out : List Bool) (l : Label) : emitBytes out l = out ++ l.flatMap bitsN := by
  unfold emitBytes
  induction l generalizing out with
  | nil => simp
  | cons b l ih => rw [List.foldl_cons, ih, emit, List.flatMap_cons, List.append_assoc]

/-- Without an offending label the encoder appends, for each label, its length byte and its bytes, and
then the root label (R132). -/
theorem emitLabels_ok (out : List Bool) (n : Name) (h : labelsWellFormed n = true) :
    emitLabels out n = .ok (out ++
      (n.flatMap fun l => bitsN (BitVec.ofNat 8 l.length) ++ l.flatMap bitsN) ++ bitsN (0 : Byte)) := by
  induction n generalizing out with
  | nil => simp [emitLabels, emit]
  | cons l n ih =>
    obtain ⟨hl, hn⟩ := (labelsWellFormed_cons l n).mp h
    rw [labelWellFormed_iff] at hl
    rw [emitLabels, if_neg (by omega), if_neg (by omega), ih _ hn, emitBytes_eq]
    simp [emit]

/-- The first offending label decides the error (R132). -/
theorem emitLabels_error (out : List Bool) (before : Name) (l : Label) (after : Name)
    (hb : labelsWellFormed before = true) :
    (64 ≤ l.length → emitLabels out (before ++ l :: after) = .error .LabelTooLong) ∧
    (l.length = 0 → emitLabels out (before ++ l :: after) = .error .EmptyLabel) := by
  induction before generalizing out with
  | nil =>
    simp only [List.nil_append, emitLabels]
    exact ⟨fun h => if_pos h, fun h => by rw [if_neg (by omega), if_pos h]⟩
  | cons b before ih =>
    obtain ⟨hl, hn⟩ := (labelsWellFormed_cons b before).mp hb
    rw [labelWellFormed_iff] at hl
    rw [List.cons_append, emitLabels, if_neg (by omega), if_neg (by omega)]
    exact ih _ hn

/-! ## Reading one label -/

/-- The `k` bytes from stream position `p` on. -/
def bytesFrom (buf : List Byte) (p k : Nat) : Label :=
  (List.range k).map fun j => BitVec.ofNat 8 (memRead buf (p + 8 * j) 8)

@[simp] theorem bytesFrom_length (buf : List Byte) (p k : Nat) : (bytesFrom buf p k).length = k := by
  simp [bytesFrom]

theorem bytesFrom_succ (buf : List Byte) (p k : Nat) :
    bytesFrom buf p (k + 1) = BitVec.ofNat 8 (memRead buf p 8) :: bytesFrom buf (p + 8) k := by
  simp only [bytesFrom, List.range_succ_eq_map, List.map_cons, List.map_map, Nat.mul_zero,
    Nat.add_zero]
  congr 1
  apply List.map_congr_left
  intro j _
  simp only [Function.comp_apply, Nat.succ_eq_add_one]
  congr 2; omega

/-- Reading `k` bytes from a canonical cursor: the bytes, and the cursor behind them. -/
theorem readLabel_of_le (buf : List Byte) (k p : Nat) (h : p + 8 * k ≤ 8 * buf.length) :
    readLabel buf k (Cursor.ofPos p) = .ok (bytesFrom buf p k, Cursor.ofPos (p + 8 * k)) := by
  induction k generalizing p with
  | zero => simp [readLabel, bytesFrom]
  | succ k ih =>
    rw [readLabel, takeByte_of_le (by rw [Cursor.pos_ofPos]; omega)]
    simp only [bind, Except.bind, pure, Except.pure, Cursor.pos_ofPos]
    rw [ih (p + 8) (by omega)]
    simp only [bytesFrom_succ, Except.ok.injEq, Prod.mk.injEq, true_and]
    congr 1; omega

/-- Reading past the end of the buffer is `Underrun`. -/
theorem readLabel_of_lt (buf : List Byte) (k p : Nat) (hp : p ≤ 8 * buf.length)
    (h : 8 * buf.length < p + 8 * k) : readLabel buf k (Cursor.ofPos p) = .error .Underrun := by
  induction k generalizing p with
  | zero => omega
  | succ k ih =>
    by_cases h8 : p + 8 ≤ 8 * buf.length
    · rw [readLabel, takeByte_of_le (by rw [Cursor.pos_ofPos]; omega)]
      simp only [bind, Except.bind, Cursor.pos_ofPos]
      rw [ih (p + 8) h8 (by omega)]
    · rw [readLabel, takeByte_of_lt (by rw [Cursor.pos_ofPos]; omega)]
      rfl

/-- Reading bytes from any cursor: the canonical cursor of its position reads the same. -/
theorem takeByte_ofPos (buf : List Byte) (c : Cursor) :
    takeByte buf (Cursor.ofPos c.pos) = takeByte buf c := by
  simp [takeByte, take]

theorem readLabel_length {buf : List Byte} {k : Nat} {c c' : Cursor} {l : Label}
    (h : readLabel buf k c = .ok (l, c')) : l.length = k := by
  induction k generalizing c c' l with
  | zero => simp only [readLabel, Except.ok.injEq, Prod.mk.injEq] at h; rw [← h.1]; rfl
  | succ k ih =>
    rw [readLabel] at h
    simp only [bind, Except.bind, pure, Except.pure] at h
    split at h
    · cases h
    · split at h
      · cases h
      · rename_i v heq
        simp only [Except.ok.injEq, Prod.mk.injEq] at h
        rw [← h.1, List.length_cons, ih heq]

/-! ## NAME_DECODE is the unbounded loop -/

/-- What one turn of the loop answers, at a position of the buffer (R134). -/
theorem readLabels_succ (buf : List Byte) (turns : Nat) (labels : Name) (p : Nat) :
    readLabels buf (turns + 1) labels (Cursor.ofPos p) =
      if 8 * buf.length < p + 8 then .error .Underrun
      else if memRead buf p 8 = 0 then .ok (labels, Cursor.ofPos (p + 8))
      else if 64 ≤ memRead buf p 8 then .error .CompressionUnsupported
      else if 8 * buf.length < p + 8 + 8 * memRead buf p 8 then .error .Underrun
      else readLabels buf turns (labels ++ [bytesFrom buf (p + 8) (memRead buf p 8)])
        (Cursor.ofPos (p + 8 + 8 * memRead buf p 8)) := by
  rw [readLabels]
  by_cases h8 : 8 * buf.length < p + 8
  · rw [takeByte_of_lt (by rw [Cursor.pos_ofPos]; omega), if_pos h8]; rfl
  · rw [takeByte_of_le (by rw [Cursor.pos_ofPos]; omega), if_neg h8]
    simp only [bind, Except.bind, pure, Except.pure, toNat_ofNat_memRead, Cursor.pos_ofPos]
    by_cases h0 : memRead buf p 8 = 0
    · rw [if_pos h0, if_pos h0]
    · rw [if_neg h0, if_neg h0]
      by_cases h64 : 64 ≤ memRead buf p 8
      · rw [if_pos h64, if_pos h64]; rfl
      · rw [if_neg h64, if_neg h64]
        by_cases hl : 8 * buf.length < p + 8 + 8 * memRead buf p 8
        · rw [if_pos hl, readLabel_of_lt buf _ _ (by omega) (by omega)]
        · rw [if_neg hl, readLabel_of_le buf _ _ (by omega)]

/-- The bound on the turns is never used up: any bound above the bytes that remain gives the same (R202). -/
theorem readLabels_turns (buf : List Byte) (t t' : Nat) (labels : Name) (p : Nat)
    (hp : p ≤ 8 * buf.length) (ht : 8 * buf.length < p + 8 * t) (ht' : 8 * buf.length < p + 8 * t') :
    readLabels buf t labels (Cursor.ofPos p) = readLabels buf t' labels (Cursor.ofPos p) := by
  induction t generalizing t' labels p with
  | zero => omega
  | succ t ih =>
    cases t' with
    | zero => omega
    | succ t' =>
      rw [readLabels_succ buf t labels p, readLabels_succ buf t' labels p]
      split_ifs <;> first | rfl | exact ih _ _ _ (by omega) (by omega) (by omega)

/-- The labels read so far stand in front of whatever the rest of the loop reads. -/
theorem readLabels_prefix (buf : List Byte) (t : Nat) (labels : Name) (p : Nat)
    (hp : p ≤ 8 * buf.length) :
    readLabels buf t labels (Cursor.ofPos p) =
      match readLabels buf t [] (Cursor.ofPos p) with
      | .ok (n, c) => .ok (labels ++ n, c)
      | .error e => .error e := by
  induction t generalizing labels p with
  | zero => rfl
  | succ t ih =>
    rw [readLabels_succ buf t labels p, readLabels_succ buf t [] p]
    split_ifs
    · rfl
    · simp
    · rfl
    · rfl
    · rw [ih _ _ (by omega), ih ([] ++ [bytesFrom buf (p + 8) (memRead buf p 8)]) _ (by omega)]
      cases readLabels buf t [] (Cursor.ofPos (p + 8 + 8 * memRead buf p 8)) <;> simp

/-- NAME_DECODE reads from a position: any cursor at it decodes the same. -/
theorem nameDecode_ofPos (buf : List Byte) (c : Cursor) :
    nameDecode buf (Cursor.ofPos c.pos) = nameDecode buf c := by
  simp only [nameDecode, readLabels, takeByte_ofPos]

/-- NAME_DECODE at a position of the buffer is the spec's loop, with no bound on its turns (R134). -/
theorem nameDecode_eq (buf : List Byte) (p : Nat) :
    nameDecode buf (Cursor.ofPos p) =
      if 8 * buf.length < p + 8 then .error .Underrun
      else if memRead buf p 8 = 0 then .ok ([], Cursor.ofPos (p + 8))
      else if 64 ≤ memRead buf p 8 then .error .CompressionUnsupported
      else if 8 * buf.length < p + 8 + 8 * memRead buf p 8 then .error .Underrun
      else match nameDecode buf (Cursor.ofPos (p + 8 + 8 * memRead buf p 8)) with
        | .ok (n, c) => .ok (bytesFrom buf (p + 8) (memRead buf p 8) :: n, c)
        | .error e => .error e := by
  have hturn := readLabels_succ buf buf.length [] p
  generalize hm : memRead buf p 8 = len at hturn ⊢
  simp only [nameDecode, hturn]
  by_cases hl : 8 * buf.length < p + 8 + 8 * len
  · simp only [hl, if_true]
  · simp only [hl, if_false]
    have hmore := readLabels_turns buf buf.length (buf.length + 1) ([] ++ [bytesFrom buf (p + 8) len])
      (p + 8 + 8 * len) (by omega) (by omega) (by omega)
    rw [hmore, readLabels_prefix buf (buf.length + 1) _ _ (by omega)]
    rfl

end Sys2Proof.Machine
end

