-- ==== Sys2Proof/Laws/Enumerations.lean ====
section
/-!
SUPPORT. What a decode of an enumeration's code can answer: the variant with that code, or
`UnsupportedCode` where no variant has it. Each list of variants is whole.
-/

namespace Sys2Proof.Machine

theorem mem_rtypeVariants (v : RecordType) : v ∈ rtypeVariants := by cases v <;> decide
theorem mem_rclassVariants (v : RecordClass) : v ∈ rclassVariants := by cases v <;> decide
theorem mem_opcodeVariants (v : Opcode) : v ∈ opcodeVariants := by cases v <;> decide
theorem mem_rcodeVariants (v : ResponseCode) : v ∈ rcodeVariants := by cases v <;> decide

theorem rtypeDecode_cases (k : U16) :
    (∃ v, rtypeEncode v = k ∧ rtypeDecode k = .ok v) ∨
    ((∀ v, rtypeEncode v ≠ k) ∧ rtypeDecode k = .error .UnsupportedCode) := by
  unfold rtypeDecode
  cases h : rtypeVariants.find? (fun v => rtypeEncode v == k) with
  | some v => exact .inl ⟨v, by simpa using List.find?_some h, rfl⟩
  | none => exact .inr ⟨fun v => by simpa using List.find?_eq_none.mp h v (mem_rtypeVariants v), rfl⟩

theorem rclassDecode_cases (k : U16) :
    (∃ v, rclassEncode v = k ∧ rclassDecode k = .ok v) ∨
    ((∀ v, rclassEncode v ≠ k) ∧ rclassDecode k = .error .UnsupportedCode) := by
  unfold rclassDecode
  cases h : rclassVariants.find? (fun v => rclassEncode v == k) with
  | some v => exact .inl ⟨v, by simpa using List.find?_some h, rfl⟩
  | none => exact .inr ⟨fun v => by simpa using List.find?_eq_none.mp h v (mem_rclassVariants v), rfl⟩

theorem opcodeDecode_cases (k : U4) :
    (∃ v, opcodeEncode v = k ∧ opcodeDecode k = .ok v) ∨
    ((∀ v, opcodeEncode v ≠ k) ∧ opcodeDecode k = .error .UnsupportedCode) := by
  unfold opcodeDecode
  cases h : opcodeVariants.find? (fun v => opcodeEncode v == k) with
  | some v => exact .inl ⟨v, by simpa using List.find?_some h, rfl⟩
  | none => exact .inr ⟨fun v => by simpa using List.find?_eq_none.mp h v (mem_opcodeVariants v), rfl⟩

theorem rcodeDecode_cases (k : U4) :
    (∃ v, rcodeEncode v = k ∧ rcodeDecode k = .ok v) ∨
    ((∀ v, rcodeEncode v ≠ k) ∧ rcodeDecode k = .error .UnsupportedCode) := by
  unfold rcodeDecode
  cases h : rcodeVariants.find? (fun v => rcodeEncode v == k) with
  | some v => exact .inl ⟨v, by simpa using List.find?_some h, rfl⟩
  | none => exact .inr ⟨fun v => by simpa using List.find?_eq_none.mp h v (mem_rcodeVariants v), rfl⟩

end Sys2Proof.Machine
end

