-- ==== Sys2Proof/Laws/MessageHeader.lean ====
section
/-!
SUPPORT. The law of HDR_DECODE: its four checks in their order, and each field as one read at its place.
-/

namespace Sys2Proof.Machine

/-- The header whose fields are read from stream position `p`, its two codes decoded (R61). -/
def headerFrom (buf : List Byte) (p : Nat) (op : Opcode) (rc : ResponseCode) : Header where
  id := BitVec.ofNat 16 (memRead buf p 16)
  qr := qrOfBit (streamBit buf (p + 16))
  opcode := op
  aa := streamBit buf (p + 21)
  tc := streamBit buf (p + 22)
  rd := streamBit buf (p + 23)
  ra := streamBit buf (p + 24)
  rcode := rc
  qdcount := BitVec.ofNat 16 (memRead buf (p + 32) 16)
  ancount := BitVec.ofNat 16 (memRead buf (p + 48) 16)
  nscount := BitVec.ofNat 16 (memRead buf (p + 64) 16)
  arcount := BitVec.ofNat 16 (memRead buf (p + 80) 16)

/-- Fewer than 96 bits remain: `Truncated`, whatever they are (R125, check 1). -/
theorem hdrDecode_of_lt {buf : List Byte} {c : Cursor} (h : 8 * buf.length < c.pos + 96) :
    hdrDecode buf c = .error .Truncated := by
  have h96 : 8 * buf.length - c.pos < Config.hdrBits := by unfold Config.hdrBits; omega
  simp only [hdrDecode, h96, if_true]
  rfl

/-- With 96 bits, the checks 2 to 4 and the fields (R125). -/
theorem hdrDecode_of_le {buf : List Byte} {c : Cursor} (h : c.pos + 96 ≤ 8 * buf.length) :
    hdrDecode buf c =
      if memRead buf (c.pos + 25) 3 ≠ 0 then .error .MalformedReserved
      else match opcodeDecode (BitVec.ofNat 4 (memRead buf (c.pos + 17) 4)) with
        | .error e => .error e
        | .ok op => match rcodeDecode (BitVec.ofNat 4 (memRead buf (c.pos + 28) 4)) with
          | .error e => .error e
          | .ok rc => .ok (headerFrom buf c.pos op rc, Cursor.ofPos (c.pos + 96)) := by
  have h96 : ¬ 8 * buf.length - c.pos < Config.hdrBits := by unfold Config.hdrBits; omega
  have hz : take buf (Cursor.ofPos (c.pos + 25)) 3
      = .ok (Cursor.ofPos (c.pos + 28), memRead buf (c.pos + 25) 3) := by
    rw [take_of_le (by rw [Cursor.pos_ofPos]; omega), Cursor.pos_ofPos]
  simp only [hdrDecode, h96, if_false]
  rw [takeU16_of_le (by omega)]
  simp only [bind, Except.bind, pure, Except.pure]
  rw [takeBit_of_le (by rw [Cursor.pos_ofPos]; omega)]
  simp only [Cursor.pos_ofPos, Nat.add_assoc, Nat.reduceAdd]
  rw [takeNibble_of_le (by rw [Cursor.pos_ofPos]; omega)]
  simp only [Cursor.pos_ofPos, Nat.add_assoc, Nat.reduceAdd]
  rw [takeBit_of_le (by rw [Cursor.pos_ofPos]; omega)]
  simp only [Cursor.pos_ofPos, Nat.add_assoc, Nat.reduceAdd]
  rw [takeBit_of_le (by rw [Cursor.pos_ofPos]; omega)]
  simp only [Cursor.pos_ofPos, Nat.add_assoc, Nat.reduceAdd]
  rw [takeBit_of_le (by rw [Cursor.pos_ofPos]; omega)]
  simp only [Cursor.pos_ofPos, Nat.add_assoc, Nat.reduceAdd]
  rw [takeBit_of_le (by rw [Cursor.pos_ofPos]; omega)]
  simp only [Cursor.pos_ofPos, Nat.add_assoc, Nat.reduceAdd]
  rw [hz]
  simp only
  rw [takeNibble_of_le (by rw [Cursor.pos_ofPos]; omega)]
  simp only [Cursor.pos_ofPos, Nat.add_assoc, Nat.reduceAdd]
  rw [takeU16_of_le (by rw [Cursor.pos_ofPos]; omega)]
  simp only [Cursor.pos_ofPos, Nat.add_assoc, Nat.reduceAdd]
  rw [takeU16_of_le (by rw [Cursor.pos_ofPos]; omega)]
  simp only [Cursor.pos_ofPos, Nat.add_assoc, Nat.reduceAdd]
  rw [takeU16_of_le (by rw [Cursor.pos_ofPos]; omega)]
  simp only [Cursor.pos_ofPos, Nat.add_assoc, Nat.reduceAdd]
  rw [takeU16_of_le (by rw [Cursor.pos_ofPos]; omega)]
  simp only [Cursor.pos_ofPos, Nat.add_assoc, Nat.reduceAdd]
  split
  · rfl
  · cases opcodeDecode (BitVec.ofNat 4 (memRead buf (c.pos + 17) 4)) with
    | error e => rfl
    | ok op =>
      cases rcodeDecode (BitVec.ofNat 4 (memRead buf (c.pos + 28) 4)) with
      | error e => rfl
      | ok rc => rfl

end Sys2Proof.Machine
end

