-- ==== Sys2Proof/Laws/Message.lean ====
section
/-!
SUPPORT. The laws of the composite operations: each is its steps in sequence, and the first failure is its
result (spec/60_exceptions.md R171).
-/

namespace Sys2Proof.Machine

/-- Q_ENCODE fails as NAME_ENCODE does, and otherwise appends the type and the class (R141). -/
theorem qEncode_eq (q : Question) :
    qEncode q = match nameEncode q.name with
      | .ok out => .ok (out ++ rtypeBits q.qtype ++ rclassBits q.qclass)
      | .error e => .error e := by
  simp only [qEncode, bind, Except.bind, pure, Except.pure]
  cases nameEncode q.name <;> rfl

/-- Q_DECODE behind a name that decodes: the type, then the class (R142). -/
theorem qDecode_of_name {buf : List Byte} {c c' : Cursor} {n : Name}
    (h : nameDecode buf c = .ok (n, c')) :
    qDecode buf c =
      if 8 * buf.length < c'.pos + 16 then .error .Underrun
      else match rtypeDecode (BitVec.ofNat 16 (memRead buf c'.pos 16)) with
        | .error e => .error e
        | .ok t =>
          if 8 * buf.length < c'.pos + 32 then .error .Underrun
          else match rclassDecode (BitVec.ofNat 16 (memRead buf (c'.pos + 16) 16)) with
            | .error e => .error e
            | .ok k => .ok (⟨n, t, k⟩, Cursor.ofPos (c'.pos + 32)) := by
  simp only [qDecode, h, bind, Except.bind, pure, Except.pure]
  by_cases h16 : 8 * buf.length < c'.pos + 16
  · rw [takeU16_of_lt h16, if_pos h16]
  · rw [takeU16_of_le (by omega), if_neg h16]
    simp only
    cases rtypeDecode (BitVec.ofNat 16 (memRead buf c'.pos 16)) with
    | error e => rfl
    | ok t =>
      simp only
      by_cases h32 : 8 * buf.length < c'.pos + 32
      · rw [takeU16_of_lt (by rw [Cursor.pos_ofPos]; omega), if_pos h32]
      · rw [takeU16_of_le (by rw [Cursor.pos_ofPos]; omega), if_neg h32, Cursor.pos_ofPos]
        simp only
        cases rclassDecode (BitVec.ofNat 16 (memRead buf (c'.pos + 16) 16)) with
        | error e => rfl
        | ok k => rfl

/-- Q_DECODE fails as NAME_DECODE does (R142). -/
theorem qDecode_of_name_error {buf : List Byte} {c : Cursor} {e : Err}
    (h : nameDecode buf c = .error e) : qDecode buf c = .error e := by
  simp only [qDecode, h, bind, Except.bind]

/-- Check 2 of MSG_BUILD passes exactly on names whose labels are all of 1 to 63 bytes (R151). -/
theorem checkLabels_ok (n : Name) : checkLabels n = .ok () ↔ labelsWellFormed n = true := by
  induction n with
  | nil => simp [checkLabels, labelsWellFormed]
  | cons l n ih =>
    rw [labelsWellFormed_cons, labelWellFormed_iff, checkLabels, Config.labelMax]
    by_cases h63 : 63 < l.length
    · rw [if_pos h63]; simp; omega
    · by_cases h0 : l.length = 0
      · rw [if_neg h63, if_pos h0]; simp; omega
      · rw [if_neg h63, if_neg h0, ih]
        exact ⟨fun h => ⟨by omega, h⟩, fun h => h.2⟩

/-- The first offending label decides the error of check 2 (R151). -/
theorem checkLabels_error (before : Name) (l : Label) (after : Name)
    (hb : labelsWellFormed before = true) :
    (63 < l.length → checkLabels (before ++ l :: after) = .error .LabelTooLong) ∧
    (l.length = 0 → checkLabels (before ++ l :: after) = .error .EmptyLabel) := by
  induction before with
  | nil =>
    rw [List.nil_append, checkLabels]
    refine ⟨fun h => if_pos h, fun h => ?_⟩
    have h63 : ¬ Config.labelMax < l.length := by rw [h]; decide
    rw [if_neg h63, if_pos h]
  | cons b before ih =>
    obtain ⟨hl, hn⟩ := (labelsWellFormed_cons b before).mp hb
    rw [labelWellFormed_iff] at hl
    rw [List.cons_append, checkLabels, Config.labelMax, if_neg (by omega), if_neg (by omega)]
    exact ih hn

/-- MSG_BUILD: the total, then the labels, then the message (R151). -/
theorem msgBuild_eq (id : U16) (s : List Byte) (t : RecordType) (k : RecordClass) :
    msgBuild id s t k =
      if 255 < encLen (nameSplit s) then .error .NameTooLong
      else match checkLabels (nameSplit s) with
        | .error e => .error e
        | .ok _ => .ok ⟨hdrNew id, [⟨nameSplit s, t, k⟩]⟩ := by
  simp only [msgBuild, Config.nameMax]
  by_cases h : 255 < encLen (nameSplit s)
  · simp only [h, if_true]; rfl
  · simp only [h, if_false, bind, Except.bind, pure, Except.pure]
    cases checkLabels (nameSplit s) <;> rfl

/-- Questions are emitted one behind the other; the first failure is the result (R153). -/
theorem emitQuestions_cons (out : List Bool) (q : Question) (qs : List Question) :
    emitQuestions out (q :: qs) = match qEncode q with
      | .ok bits => emitQuestions (out ++ bits) qs
      | .error e => .error e := by
  simp only [emitQuestions, bind, Except.bind]
  cases qEncode q <;> rfl

/-- Questions are decoded one behind the other; the first failure is the result (R155). -/
theorem readQuestions_succ (buf : List Byte) (k : Nat) (c : Cursor) :
    readQuestions buf (k + 1) c = match qDecode buf c with
      | .error e => .error e
      | .ok (q, c') => match readQuestions buf k c' with
        | .error e => .error e
        | .ok qs => .ok (q :: qs) := by
  simp only [readQuestions, bind, Except.bind, pure, Except.pure]
  cases qDecode buf c with
  | error e => rfl
  | ok v =>
    simp only
    cases readQuestions buf k v.2 <;> rfl

theorem readQuestions_length {buf : List Byte} {k : Nat} {c : Cursor} {qs : List Question}
    (h : readQuestions buf k c = .ok qs) : qs.length = k := by
  induction k generalizing c qs with
  | zero => simp only [readQuestions, Except.ok.injEq] at h; rw [← h]; rfl
  | succ k ih =>
    rw [readQuestions_succ] at h
    split at h
    · cases h
    · split at h
      · cases h
      · rename_i heq
        simp only [Except.ok.injEq] at h
        rw [← h, List.length_cons, ih heq]

/-- MSG_DECODE: the header at the origin, then as many questions as it counts (R155). -/
theorem msgDecode_eq (b : List Byte) :
    msgDecode b = match hdrDecode b Cursor.origin with
      | .error e => .error e
      | .ok (h, c) => match readQuestions b h.qdcount.toNat c with
        | .error e => .error e
        | .ok qs => .ok ⟨h, qs⟩ := by
  simp only [msgDecode, bind, Except.bind, pure, Except.pure]
  cases hdrDecode b Cursor.origin with
  | error e => rfl
  | ok v =>
    simp only
    cases readQuestions b v.1.qdcount.toNat v.2 <;> rfl

end Sys2Proof.Machine
end

