-- ==== Sys2Proof/Tests/Slice0.lean ====
section
/-!
SUPPORT. Tests, few and small. Their expected results are the spec's: words written out from
spec/30_encoding.md, and the vectors of spec/95_test_vectors.md. Then, for each statement that has
hypotheses, a concrete state and operands that meet them, at the boundaries of their ranges.
-/

namespace Sys2Proof.Tests

open Machine Spec

/-- Bytes written as numbers. -/
def bytes (l : List Nat) : List Byte := l.map (BitVec.ofNat 8)

/-- `google`, `com` and `www` as labels. -/
def google : Label := bytes [0x67, 0x6f, 0x6f, 0x67, 0x6c, 0x65]
def com : Label := bytes [0x63, 0x6f, 0x6d]
def www : Label := bytes [0x77, 0x77, 0x77]

/-- `k` times the byte `x` (R84). -/
def xs (k : Nat) : Label := List.replicate k 0x78

/-- A state right after reset whose transaction holds the operands `a`. -/
def on (a : Operands) : State := { State.reset with args := a }

/-- A state right after reset with transactions presented. -/
def presented (ts : List Transaction) : State := { State.reset with pending := ts }

/-- The operands of the tests: the model's initial ones, each test setting those it reads. -/
def base : Operands := Operands.initial

/-- What one transaction answers. -/
def answer : Step → Option Response
  | .next s => s.results.getLast?
  | .fault _ => none
  | .refused _ => none

/-- What `OUT` holds after one transaction. -/
def outOf : Step → Option (List Bool)
  | .next s => some s.out
  | .fault _ => none
  | .refused _ => none

/-- Bits written as digits. -/
def bits (l : List Nat) : List Bool := l.map (· == 1)

/-! ## Decoding: every constructor, by a word written out from the spec's encoding -/

theorem test_decode_bit_cursor_operations :
    [0b00001, 0b00010, 0b00011, 0b00100].map (fun k => decode (.op k)) =
      [.ok .take, .ok .takeBit, .ok .takeNibble, .ok .takeU16] := by decide

theorem test_decode_enumerations_operations :
    [0b00101, 0b00110, 0b00111, 0b01000, 0b01001, 0b01010, 0b01011, 0b01100, 0b01101, 0b01110, 0b01111, 0b10000].map (fun k => decode (.op k)) =
      [.ok .rtypeDecode, .ok .rtypeEncode, .ok .rtypeBits, .ok .rclassDecode, .ok .rclassEncode, .ok .rclassBits, .ok .opcodeDecode, .ok .opcodeEncode, .ok .opcodeBits, .ok .rcodeDecode, .ok .rcodeEncode, .ok .rcodeBits] := by decide

theorem test_decode_message_header_operations :
    [0b10001, 0b10010, 0b10011].map (fun k => decode (.op k)) =
      [.ok .hdrNew, .ok .hdrEncode, .ok .hdrDecode] := by decide

theorem test_decode_domain_name_operations :
    [0b10100, 0b10101, 0b10110].map (fun k => decode (.op k)) =
      [.ok .nameSplit, .ok .nameEncode, .ok .nameDecode] := by decide

theorem test_decode_question_operations :
    [0b10111, 0b11000].map (fun k => decode (.op k)) =
      [.ok .qEncode, .ok .qDecode] := by decide

theorem test_decode_message_operations :
    [0b11001, 0b11010, 0b11011].map (fun k => decode (.op k)) =
      [.ok .msgBuild, .ok .msgEncode, .ok .msgDecode] := by decide

theorem test_decode_record_type_codes :
    [[0b00000000, 0b00000001], [0b00000000, 0b00000010], [0b00000000, 0b00000011], [0b00000000, 0b00000100],
     [0b00000000, 0b00000101], [0b00000000, 0b00000110], [0b00000000, 0b00000111], [0b00000000, 0b00001000],
     [0b00000000, 0b00001001], [0b00000000, 0b00001010], [0b00000000, 0b00001011], [0b00000000, 0b00001100],
     [0b00000000, 0b00001101], [0b00000000, 0b00001110], [0b00000000, 0b00001111], [0b00000000, 0b00010000],
     [0b00000000, 0b00011100]].map
        (fun b => decode (.wire .rtype16 b)) =
      [.ok .recordTypeA, .ok .recordTypeNS, .ok .recordTypeMD, .ok .recordTypeMF,
       .ok .recordTypeCNAME, .ok .recordTypeSOA, .ok .recordTypeMB, .ok .recordTypeMG,
       .ok .recordTypeMR, .ok .recordTypeNULL, .ok .recordTypeWKS, .ok .recordTypePTR,
       .ok .recordTypeHINFO, .ok .recordTypeMINFO, .ok .recordTypeMX, .ok .recordTypeTXT,
       .ok .recordTypeAAAA] := by decide

theorem test_decode_record_class_codes :
    [[0b00000000, 0b00000001], [0b00000000, 0b00000010], [0b00000000, 0b00000011], [0b00000000, 0b00000100]].map
        (fun b => decode (.wire .rclass16 b)) =
      [.ok .recordClassIN, .ok .recordClassCS, .ok .recordClassCH, .ok .recordClassHS] := by decide

theorem test_decode_opcode_codes :
    [[0b00000000], [0b00010000], [0b00100000]].map
        (fun b => decode (.wire .opcode4 b)) =
      [.ok .opcodeQuery, .ok .opcodeInverseQuery, .ok .opcodeStatus] := by decide

theorem test_decode_response_code_codes :
    [[0b00000000], [0b00010000], [0b00100000], [0b00110000],
     [0b01000000], [0b01010000]].map
        (fun b => decode (.wire .rcode4 b)) =
      [.ok .responseCodeNoError, .ok .responseCodeFormatError, .ok .responseCodeServerFailure, .ok .responseCodeNameError,
       .ok .responseCodeNotImplemented, .ok .responseCodeRefused] := by decide

/-- Each row of R68, at both ends of its range. -/
theorem test_decode_length_bytes :
    [0b00000000, 0b00000001, 0b00111111, 0b01000000, 0b01111111, 0b10000000, 0b10111111, 0b11000000,
        0b11111111].map (fun b => decode (.wire .len8 [b])) =
      [.ok .lengthByteRoot, .ok (.lengthByteLabel 1), .ok (.lengthByteLabel 63),
       .ok (.lengthByteReserved01 0), .ok (.lengthByteReserved01 63), .ok (.lengthByteReserved10 0),
       .ok (.lengthByteReserved10 63), .ok (.lengthByteReserved11 0), .ok (.lengthByteReserved11 63)] := by
  decide

/-- ID `1010010101011010`, QR 1, OPCODE 0001, AA TC RD 111, RA 1, Z 000, RCODE 0101, counts 2 to 5. -/
theorem test_decode_header :
    decode (.wire .hdr96 [0b10100101, 0b01011010, 0b10001111, 0b10000101, 0b00000000, 0b00000010, 0b00000000,
        0b00000011, 0b00000000, 0b00000100, 0b00000000, 0b00000101]) =
      .ok (.header ⟨0xa55a, .Response, .InverseQuery, true, true, true, true, .Refused, 2, 3, 4, 5⟩) := by
  decide

theorem test_decode_label :
    decode (.wire .label [0b00000011, 0b01110111, 0b01110111, 0b01110111]) = .ok (.label www) := by decide

theorem test_decode_name :
    decode (.wire .name (bytes [0x03, 0x77, 0x77, 0x77, 0x01, 0x61, 0x00])) = .ok (.name [www, [0x61]]) := by
  decide

theorem test_decode_question :
    decode (.wire .question (bytes [0x01, 0x61, 0x00, 0x00, 0x0f, 0x00, 0x03])) =
      .ok (.question ⟨[[0x61]], .MX, .CH⟩) := by decide

theorem test_decode_message :
    decode (.wire .message (bytes [0x00, 0x00, 0x01, 0x00, 0x00, 0x01, 0x00, 0x00, 0x00, 0x00, 0x00, 0x00,
        0x01, 0x61, 0x00, 0x00, 0x0f, 0x00, 0x03])) =
      .ok (.message ⟨⟨0, .Query, .Query, false, false, true, false, .NoError, 1, 0, 0, 0⟩,
        [⟨[[0x61]], .MX, .CH⟩]⟩) := by decide

/-- The OPSEL values that name nothing (R81), and bytes that are no element (R76). -/
theorem test_decode_rejects :
    [0x00, 0x1C, 0x1D, 0x1E, 0x1F].map (fun k => decode (.op k)) = List.replicate 5 (.error .unknownOpsel) ∧
    decode (.wire .rtype16 (bytes [0, 17])) = .error (.badElement .UnsupportedCode) ∧
    decode (.wire .opcode4 (bytes [0x30])) = .error (.badElement .UnsupportedCode) ∧
    decode (.wire .label (bytes [0x40])) = .error (.badElement .CompressionUnsupported) ∧
    decode (.wire .hdr96 (bytes [0, 1])) = .error (.badElement .Truncated) := by decide

/-! ## WellFormed: an ill-formed term for each check, refused -/

theorem test_illFormed_length_byte : (Instr.lengthByteLabel 0).WellFormed = false := by decide
theorem test_illFormed_empty_label : (Instr.label []).WellFormed = false := by decide
theorem test_illFormed_long_label : (Instr.label (xs 64)).WellFormed = false := by decide
theorem test_wellFormed_longest_label : (Instr.label (xs 63)).WellFormed = true := by decide
theorem test_illFormed_name : (Instr.name [com, []]).WellFormed = false := by decide
theorem test_illFormed_question : (Instr.question ⟨[xs 64], .A, .IN⟩).WellFormed = false := by decide
theorem test_illFormed_message_label :
    (Instr.message ⟨hdrNew 1, [⟨[[]], .A, .IN⟩]⟩).WellFormed = false := by decide
theorem test_illFormed_message_count :
    (Instr.message ⟨hdrNew 1, []⟩).WellFormed = false := by decide

/-! ## One step for each instruction, by the vectors of spec/95_test_vectors.md and the rules' examples -/

/-- `a5 c3 0f`, the buffer of R90 to R93. -/
def sample (cur : Cursor) : Operands := { base with buf := bytes [0xa5, 0xc3, 0x0f], cur := cur }

theorem test_take : answer (exec .take (on { sample ⟨0, 4⟩ with n := 16 })) =
    some (.ok (.read ⟨2, 4⟩ 0x5c30)) := by decide
theorem test_take_underrun : answer (exec .take (on { sample ⟨1, 1⟩ with n := 16 })) =
    some (.err .Underrun) := by decide
theorem test_takeBit : answer (exec .takeBit (on (sample ⟨0, 0⟩))) = some (.ok (.bit ⟨0, 1⟩ true)) := by decide
theorem test_takeBit_zero : answer (exec .takeBit (on (sample ⟨0, 1⟩))) = some (.ok (.bit ⟨0, 2⟩ false)) := by decide
theorem test_takeNibble : answer (exec .takeNibble (on (sample ⟨0, 4⟩))) =
    some (.ok (.read ⟨1, 0⟩ 5)) := by decide
theorem test_takeU16 : answer (exec .takeU16 (on (sample ⟨1, 0⟩))) =
    some (.ok (.read ⟨3, 0⟩ 0xc30f)) := by decide
theorem test_takeU16_underrun : answer (exec .takeU16 (on (sample ⟨1, 1⟩))) = some (.err .Underrun) := by decide

theorem test_rtypeDecode : answer (exec .rtypeDecode (on { base with code16 := 28 })) =
    some (.ok (.rtype .AAAA)) := by decide
theorem test_rtypeDecode_unsupported : answer (exec .rtypeDecode (on { base with code16 := 17 })) =
    some (.err .UnsupportedCode) := by decide
theorem test_rtypeEncode : answer (exec .rtypeEncode (on { base with rtype := .MX })) =
    some (.ok (.code16 15)) := by decide
theorem test_rtypeBits : outOf (exec .rtypeBits (on { base with rtype := .AAAA })) =
    some (bits [0, 0, 0, 0, 0, 0, 0, 0, 0, 0, 0, 1, 1, 1, 0, 0]) := by decide
theorem test_rclassDecode : answer (exec .rclassDecode (on { base with code16 := 1 })) =
    some (.ok (.rclass .IN)) := by decide
theorem test_rclassDecode_unsupported : answer (exec .rclassDecode (on { base with code16 := 5 })) =
    some (.err .UnsupportedCode) := by decide
theorem test_rclassEncode : answer (exec .rclassEncode (on { base with rclass := .CH })) =
    some (.ok (.code16 3)) := by decide
theorem test_rclassBits : outOf (exec .rclassBits (on { base with rclass := .IN })) =
    some (bits [0, 0, 0, 0, 0, 0, 0, 0, 0, 0, 0, 0, 0, 0, 0, 1]) := by decide
theorem test_opcodeDecode : answer (exec .opcodeDecode (on { base with code4 := 2 })) =
    some (.ok (.opcode .Status)) := by decide
theorem test_opcodeDecode_unsupported : answer (exec .opcodeDecode (on { base with code4 := 15 })) =
    some (.err .UnsupportedCode) := by decide
theorem test_opcodeEncode : answer (exec .opcodeEncode (on { base with opcode := .InverseQuery })) =
    some (.ok (.code4 1)) := by decide
theorem test_opcodeBits : outOf (exec .opcodeBits (on { base with opcode := .Status })) =
    some (bits [0, 0, 1, 0]) := by decide
theorem test_rcodeDecode : answer (exec .rcodeDecode (on { base with code4 := 3 })) =
    some (.ok (.rcode .NameError)) := by decide
theorem test_rcodeDecode_unsupported : answer (exec .rcodeDecode (on { base with code4 := 6 })) =
    some (.err .UnsupportedCode) := by decide
theorem test_rcodeEncode : answer (exec .rcodeEncode (on { base with rcode := .Refused })) =
    some (.ok (.code4 5)) := by decide
theorem test_rcodeBits : outOf (exec .rcodeBits (on { base with rcode := .NotImplemented })) =
    some (bits [0, 1, 0, 0]) := by decide

/-- The response header of section 2.3: `be ef 85 83 00 01 00 00 00 01 00 00`. -/
def beef : Header := ⟨0xbeef, .Response, .Query, true, false, true, true, .NameError, 1, 0, 1, 0⟩
def beefBytes : List Byte := bytes [0xbe, 0xef, 0x85, 0x83, 0x00, 0x01, 0x00, 0x00, 0x00, 0x01, 0x00, 0x00]

theorem test_hdrNew : answer (exec .hdrNew (on { base with id := 7 })) =
    some (.ok (.hdr ⟨7, .Query, .Query, false, false, true, false, .NoError, 1, 0, 0, 0⟩)) := by decide
theorem test_hdrEncode : (outOf (exec .hdrEncode (on { base with hdr := beef }))).map pack =
    some beefBytes := by decide
theorem test_hdrEncode_defaults : (outOf (exec .hdrEncode (on { base with hdr := hdrNew 0x1234 }))).map pack =
    some (bytes [0x12, 0x34, 0x01, 0x00, 0x00, 0x01, 0x00, 0x00, 0x00, 0x00, 0x00, 0x00]) := by decide
theorem test_hdrDecode_at_a_nibble : answer (exec .hdrDecode (on { base with
      buf := bytes [0xf0, 0x00, 0x10, 0x10, 0x00, 0x00, 0x10, 0x00, 0x00, 0x00, 0x00, 0x00, 0x00]
      cur := ⟨0, 4⟩ })) =
    some (.ok (.hdrAt (hdrNew 1) ⟨12, 4⟩)) := by decide
theorem test_hdrDecode_reserved_before_opcode : answer (exec .hdrDecode (on { base with
      buf := bytes [0x00, 0x01, 0x79, 0x20, 0x00, 0x01, 0x00, 0x00, 0x00, 0x00, 0x00, 0x00] })) =
    some (.err .MalformedReserved) := by decide

theorem test_nameSplit : answer (exec .nameSplit (on { base with str := google ++ 0x2E :: com })) =
    some (.ok (.name [google, com])) := by decide
theorem test_nameSplit_dots : answer (exec .nameSplit (on { base with str := bytes [0x61, 0x2E, 0x2E, 0x62] })) =
    some (.ok (.name [[0x61], [], [0x62]])) := by decide
theorem test_nameEncode : (outOf (exec .nameEncode (on { base with name := [google, com] }))).map pack =
    some (bytes [0x06, 0x67, 0x6f, 0x6f, 0x67, 0x6c, 0x65, 0x03, 0x63, 0x6f, 0x6d, 0x00]) := by decide
theorem test_nameEncode_first_offender : answer (exec .nameEncode (on { base with name := [[], xs 64] })) =
    some (.err .EmptyLabel) := by decide
theorem test_nameDecode_at_a_bit : answer (exec .nameDecode (on { base with
      buf := bytes [0xa0, 0x2c, 0x20, 0x2c, 0x40, 0x00], cur := ⟨0, 3⟩ })) =
    some (.ok (.nameAt [[0x61], [0x62]] ⟨5, 3⟩)) := by decide
theorem test_nameDecode_label_byte : answer (exec .nameDecode (on { base with
      buf := bytes [0x03, 0x77, 0x77, 0xc0] })) = some (.err .Underrun) := by decide

theorem test_qEncode : (outOf (exec .qEncode (on { base with q := ⟨[[0x61]], .MX, .CH⟩ }))).map pack =
    some (bytes [0x01, 0x61, 0x00, 0x00, 0x0f, 0x00, 0x03]) := by decide
theorem test_qEncode_too_long : answer (exec .qEncode (on { base with q := ⟨[xs 64], .A, .IN⟩ })) =
    some (.err .LabelTooLong) := by decide
theorem test_qDecode : answer (exec .qDecode (on { base with
      buf := bytes [0x01, 0x61, 0x00, 0x00, 0x1c, 0x00, 0x01] })) =
    some (.ok (.questionAt ⟨[[0x61]], .AAAA, .IN⟩ ⟨7, 0⟩)) := by decide
theorem test_qDecode_type_before_class : answer (exec .qDecode (on { base with
      buf := bytes [0x00, 0x00, 0xff] })) = some (.err .UnsupportedCode) := by decide

theorem test_msgBuild : answer (exec .msgBuild (on { base with str := [0x61], rtype := .MX, rclass := .CH })) =
    some (.ok (.msg ⟨hdrNew 0, [⟨[[0x61]], .MX, .CH⟩]⟩)) := by decide
theorem test_msgBuild_total_before_labels : answer (exec .msgBuild (on { base with str := xs 254 })) =
    some (.err .NameTooLong) := by decide +kernel

/-- The two-question message of section 2.6, and its 28 bytes. -/
def twoQuestions : Message :=
  ⟨⟨7, .Query, .Query, false, false, true, false, .NoError, 2, 0, 0, 0⟩,
    [⟨[[0x61]], .A, .IN⟩, ⟨[[0x62], [0x63]], .TXT, .CH⟩]⟩
def twoQuestionsBytes : List Byte :=
  bytes [0x00, 0x07, 0x01, 0x00, 0x00, 0x02, 0x00, 0x00, 0x00, 0x00, 0x00, 0x00, 0x01, 0x61, 0x00, 0x00, 0x01, 0x00, 0x01,
    0x01, 0x62, 0x01, 0x63, 0x00, 0x00, 0x10, 0x00, 0x03]

theorem test_msgEncode : answer (exec .msgEncode (on { base with msg := twoQuestions })) =
    some (.ok (.bytes twoQuestionsBytes)) := by decide +kernel
theorem test_msgDecode : answer (exec .msgDecode (on { base with buf := twoQuestionsBytes })) =
    some (.ok (.msg twoQuestions)) := by decide +kernel
theorem test_msgDecode_pointer : answer (exec .msgDecode (on { base with
      buf := bytes [0x12, 0x34, 0x81, 0x80, 0x00, 0x01, 0x00, 0x00, 0x00, 0x00, 0x00, 0x00, 0xc0, 0x0c, 0x00, 0x01, 0x00,
        0x01] })) = some (.err .CompressionUnsupported) := by decide +kernel

theorem test_lengthByteRoot : answer (exec .lengthByteRoot (on { base with
      buf := bytes [0x00], cur := ⟨1, 0⟩, name := [www] })) =
    some (.ok (.labelsAt [www] ⟨1, 0⟩)) := by decide
theorem test_lengthByteLabel : answer (exec (.lengthByteLabel 3) (on { base with
      buf := bytes [0x03, 0x77, 0x77, 0x77, 0x00], cur := ⟨1, 0⟩, name := [[0x61]] })) =
    some (.ok (.labelsAt [[0x61], www] ⟨4, 0⟩)) := by decide
theorem test_lengthByteReserved : answer (exec (.lengthByteReserved11 12) (on base)) =
    some (.err .CompressionUnsupported) := by decide
theorem test_element_name : answer (exec (.name [google, com]) (on base)) =
    some (.ok (.name [google, com])) := by decide
theorem test_code : answer (exec .recordTypeAAAA (on base)) = some (.ok (.rtype .AAAA)) := by decide

/-! ## A step, and the table's words -/

/-- A transaction is taken from the front, answered behind the answers before, and the next one waits. -/
theorem test_step : step (presented [⟨.op 0x11, { base with id := 1 }⟩, ⟨.op 0x1B, base⟩]) =
    .next { pending := [⟨.op 0x1B, base⟩], args := { base with id := 1 }, out := [],
            results := [.ok (.hdr (hdrNew 1))] } := rfl
/-- Bytes that are no element end in their error (R76). -/
theorem test_step_bad_element : answer (step (presented [⟨.wire .rcode4 (bytes [0x60]), base⟩])) =
    some (.err .UnsupportedCode) := by decide
theorem test_step_idle : step State.reset = .next State.reset := rfl
theorem test_fetchWord : answer (step (State.reset.withFetchWord 16 0b0000000000011100)) =
    some (.ok (.rtype .AAAA)) := by decide
theorem test_tableWords :
    decodeTableWord 8 0x1A = some .msgEncode ∧ decodeTableWord 8 0x00 = some .lengthByteRoot ∧
    decodeTableWord 8 0x3F = some (.lengthByteLabel 63) ∧
    decodeTableWord 24 0x016100 = some (.label [0x61]) ∧ decodeTableWord 96 0 = some (.header blankHeader) := by
  decide

/-! ## Witnesses: states and operands that meet the hypotheses of each statement that has some -/

/-- A transaction within the contract for each way a transaction can begin: an operation without a cursor,
one with a cursor and a width, and bytes that are no element of their format. -/
def asked : List Transaction :=
  [⟨.op 0x11, base⟩, ⟨.op 0x01, { sample ⟨3, 0⟩ with n := 16 }⟩, ⟨.wire .rcode4 (bytes [0x60]), base⟩]

theorem asked_inContract : Safe (presented asked) := by
  intro t ht
  simp only [presented, asked, List.mem_cons, List.not_mem_nil, or_false] at ht
  rcases ht with rfl | rfl | rfl
  · exact (⟨fun h => Bool.noConfusion h, fun h => Bool.noConfusion h⟩ : OperandsInContract .hdrNew base)
  · exact (⟨fun _ => by decide, fun _ => by decide⟩ : OperandsInContract .take { sample ⟨3, 0⟩ with n := 16 })
  · exact trivial

/-- An answer that is a value, and one that is an error; an encoder, and an instruction that is none. -/
theorem witness_EveryInstructionsFrame :
    (∃ s', exec .take (on { sample ⟨0, 0⟩ with n := 16 }) = .next s') ∧
    (∃ s', exec .hdrEncode (on base) = .next s') ∧
    Instr.take ∉ [Instr.rtypeBits, .rclassBits, .opcodeBits, .rcodeBits, .hdrEncode, .nameEncode, .qEncode,
      .msgEncode] :=
  ⟨⟨_, rfl⟩, ⟨_, rfl⟩, by decide⟩

theorem witness_AnErrorLeavesNothingElse :
    ∃ s', exec .nameEncode (on { base with name := [[]] }) = .next s' ∧ s'.results = [] ++ [.err .EmptyLabel] :=
  ⟨_, rfl, rfl⟩

theorem witness_TransactionsAreIndependent : Safe (presented asked) ∧ (presented asked).pending.length = 3 :=
  ⟨asked_inContract, rfl⟩

theorem witness_NothingIsLeftFromEarlierTransactions :
    (presented asked).pending ≠ [] ∧ (presented asked).pending = ({ presented asked with out := [true] }).pending ∧
      (presented asked).results = ({ presented asked with out := [true] }).results :=
  ⟨by decide, rfl, rfl⟩

theorem witness_ResetIsIdleAndReady :
    InContract ⟨.op 0x11, base⟩ ∧ ({ on (sample ⟨0, 0⟩) with results := [.err .Underrun] }).pending = [] :=
  ⟨asked_inContract _ (.head _), rfl⟩

theorem witness_StepRunsTheDecodedInstruction :
    State.reset.pending = [] ∧ decode (.op 0b11011) = .ok .msgDecode ∧
    decode (.wire .rcode4 [0b01100000]) = .error (.badElement .UnsupportedCode) ∧
    (presented asked).pending = ⟨.op 0x11, base⟩ :: asked.tail :=
  ⟨rfl, by decide, by decide, rfl⟩

/-- States that meet the invariant, one with a result that carries a cursor, and steps from them. -/
theorem witness_EveryStepKeepsTheInvariant :
    (∃ s', Inv (presented asked) ∧ step (presented asked) = .next s') ∧
    ∃ s s', Inv s ∧ s.results = [.ok (.read ⟨2, 0⟩ 0xa5c3)] ∧ step s = .next s' := by
  refine ⟨⟨_, ⟨?_, ?_, ?_⟩, rfl⟩,
    { presented asked with args := sample ⟨0, 0⟩, results := [.ok (.read ⟨2, 0⟩ 0xa5c3)] }, _, ⟨?_, ?_, ?_⟩, rfl, rfl⟩
  · simp [presented, State.reset]
  · simp [presented, State.reset]
  · exact .inr ⟨0, rfl⟩
  · simp [ResponseSound]
  · intro r c hr hc
    cases hr
    cases hc
    decide
  · exact .inr ⟨0, rfl⟩

theorem witness_ReadsInARowAreOneRead :
    let buf := bytes [0xa5, 0xc3, 0x0f]
    (Cursor.mk 1 0).WellFormed buf ∧ take buf ⟨1, 0⟩ 1 = .ok (⟨1, 1⟩, 1) ∧ take buf ⟨1, 1⟩ 15 = .ok (⟨3, 0⟩, 0x430f) ∧
    1 + 15 ≤ 16 ∧ (Cursor.mk 1 1).WellFormed buf ∧ take buf ⟨1, 1⟩ (8 + 8) = .error .Underrun := by decide

theorem witness_ReadAfterPack :
    let nine := List.replicate 9 true
    1 ≤ 9 ∧ 9 ≤ 16 ∧ 0 + 9 ≤ nine.length ∧ nine.length ≤ 9 ∧ 15 < 8 * (pack nine).length := by decide

/-- The layout's clauses at the last bit of nine, and a message that has bits; `101` packs to `a0`, nine
1-bits to `ff 80` (section 2.6). -/
theorem witness_PackLayout :
    1 < (pack (List.replicate 9 true)).length ∧ pack (bits [1, 0, 1]) = [0xa0] ∧
    pack (List.replicate 9 true) = [0xff, 0x80] ∧
    msgBits ⟨hdrNew 1, []⟩ = .ok (hdrEncode (hdrNew 1)) := by decide

/-- Both clauses of each read where they meet: as many bits as are read remain, and one fewer. -/
theorem witness_TakeReadsTheNextBits :
    let a := { sample ⟨1, 0⟩ with n := 16 }
    let b := { sample ⟨1, 1⟩ with n := 16 }
    a.cur.WellFormed a.buf ∧ 1 ≤ a.n ∧ a.n ≤ 16 ∧ a.cur.pos + a.n ≤ 8 * a.buf.length ∧
    b.cur.WellFormed b.buf ∧ 1 ≤ b.n ∧ b.n ≤ 16 ∧ 8 * b.buf.length < b.cur.pos + b.n := by decide

theorem witness_TakeBitReadsOneBit :
    let a := sample ⟨2, 7⟩
    let b := sample ⟨3, 0⟩
    a.cur.WellFormed a.buf ∧ a.cur.pos + 1 ≤ 8 * a.buf.length ∧
    b.cur.WellFormed b.buf ∧ 8 * b.buf.length < b.cur.pos + 1 := by decide

theorem witness_TakeNibbleReadsFourBits :
    let a := sample ⟨2, 4⟩
    let b := sample ⟨2, 5⟩
    a.cur.WellFormed a.buf ∧ a.cur.pos + 4 ≤ 8 * a.buf.length ∧
    b.cur.WellFormed b.buf ∧ 8 * b.buf.length < b.cur.pos + 4 := by decide

theorem witness_TakeU16ReadsABigEndianWord :
    let a := sample ⟨1, 0⟩
    let b := sample ⟨1, 1⟩
    a.cur.WellFormed a.buf ∧ a.cur.pos + 16 ≤ 8 * a.buf.length ∧ a.cur.bit = 0 ∧
    b.cur.WellFormed b.buf ∧ 8 * b.buf.length < b.cur.pos + 16 := by decide

/-- Widths 0 and 17, a cursor at bit 8, one a bit behind the end, and the OPSEL values 0 and 0x1C. -/
theorem witness_WhatIsOutsideTheContractIsRefused :
    ({ base with n := 0 }).n = 0 ∧ 16 < ({ base with n := 17 }).n ∧ 7 < (sample ⟨0, 8⟩).cur.bit ∧
    8 * (sample ⟨3, 1⟩).buf.length < (sample ⟨3, 1⟩).cur.pos ∧
    (presented [⟨.op 0x00, base⟩]).pending = [⟨.op 0x00, base⟩] ∧ 0x1C ≤ (0x1C : BitVec 5).toNat := by decide

theorem witness_NothingWithinTheContractStops :
    OperandsInContract .take { sample ⟨3, 0⟩ with n := 16 } ∧ ¬ OperandsInContract .take { sample ⟨3, 0⟩ with n := 17 } ∧
    (presented asked).pending = ⟨.op 0x11, base⟩ :: asked.tail ∧ InContract ⟨.op 0x11, base⟩ ∧
    ¬ InContract ⟨.op 0x1C, base⟩ :=
  ⟨⟨fun _ => by decide, fun _ => by decide⟩, fun h => absurd (h.2 rfl) (by decide), rfl,
   asked_inContract _ (.head _), fun h => h⟩

/-- Decoders that succeed from a cursor that is not on a byte boundary. -/
theorem witness_DecodersAdvanceByWhatTheyRead :
    let buf := bytes [0xf0, 0x00, 0x10, 0x10, 0x00, 0x00, 0x10, 0x00, 0x00, 0x00, 0x00, 0x00, 0x00]
    (Cursor.mk 0 4).WellFormed buf ∧ hdrDecode buf ⟨0, 4⟩ = .ok (hdrNew 1, ⟨12, 4⟩) ∧
    nameDecode buf ⟨0, 4⟩ = .ok ([], ⟨1, 4⟩) ∧
    qDecode (bytes [0xf0, 0x00, 0x00, 0x10, 0x00, 0x10]) ⟨0, 4⟩ = .ok (⟨[], .A, .IN⟩, ⟨5, 4⟩) := by decide

/-- The ends of the ranges of the unsupported codes (R74), each beside a code of the table. -/
theorem witness_CodesDecodeByTheirTables :
    (28, RecordType.AAAA) ∈ recordTypeTable ∧ (17 ≤ (17 : U16).toNat ∧ (27 : U16).toNat ≤ 27) ∧
    29 ≤ (29 : U16).toNat ∧ (0 : U16).toNat = 0 ∧ (4, RecordClass.HS) ∈ recordClassTable ∧ 5 ≤ (5 : U16).toNat ∧
    (2, Opcode.Status) ∈ opcodeTable ∧ 3 ≤ (3 : U4).toNat ∧ (5, ResponseCode.Refused) ∈ responseCodeTable ∧
    6 ≤ (6 : U4).toNat := by decide

theorem witness_EnumerationsRoundTrip :
    rtypeDecode 28 = .ok .AAAA ∧ rclassDecode 4 = .ok .HS ∧ opcodeDecode 2 = .ok .Status ∧
    rcodeDecode 5 = .ok .Refused := by decide

/-- Too short by one bit; Z not 0; a code of each kind just outside its table; and a header that decodes,
its codes the greatest. -/
theorem witness_HdrDecodeUnpacksTheLayout :
    let a := { base with buf := beefBytes, cur := ⟨0, 1⟩ }
    let good := bytes [0xff, 0xff, 0x94, 0x05, 0x00, 0x00, 0xff, 0xff, 0x12, 0x34, 0x00, 0x01]
    let reserved := bytes [0x00, 0x01, 0x01, 0x10, 0x00, 0x01, 0x00, 0x00, 0x00, 0x00, 0x00, 0x00]
    let badOpcode := bytes [0x00, 0x01, 0x18, 0x00, 0x00, 0x01, 0x00, 0x00, 0x00, 0x00, 0x00, 0x00]
    let badRcode := bytes [0x00, 0x01, 0x01, 0x06, 0x00, 0x01, 0x00, 0x00, 0x00, 0x00, 0x00, 0x00]
    (a.cur.WellFormed a.buf ∧ 8 * a.buf.length < a.cur.pos + 96) ∧
    Cursor.origin.WellFormed good ∧ 0 + 96 ≤ 8 * good.length ∧
    (FieldIs reserved 25 3 1 ∧ FieldIs badOpcode 25 3 0 ∧ FieldIs badRcode 25 3 0 ∧ FieldIs good 25 3 0) ∧
    (FieldIs badOpcode 17 4 3 ∧ FieldIs badOpcode 28 4 0 ∧ FieldIs badRcode 17 4 0 ∧ FieldIs badRcode 28 4 6) ∧
    FieldIs good 17 4 2 ∧ FieldIs good 28 4 5 := by
  unfold FieldIs
  decide

theorem witness_HeadersRoundTrip :
    beefBytes.length = 12 ∧ hdrDecode beefBytes Cursor.origin = .ok (beef, ⟨12, 0⟩) := by decide

theorem witness_NameSplitCutsAtEveryDot :
    base.str = [] ∧ ({ base with str := [0x2E] }).str ≠ [] := by decide

/-- The longest good label; the shortest too long one and the empty one, each behind a good one. -/
theorem witness_NameEncodeEmitsTheLabels :
    labelsWellFormed [com, xs 63] = true ∧
    (FirstBadLabel [com, xs 64, []] (xs 64) ∧ 64 ≤ (xs 64).length) ∧
    (FirstBadLabel [com, [], xs 64] [] ∧ ([] : Label).length = 0) :=
  ⟨by decide, ⟨⟨[com], [[]], rfl, by decide, by decide⟩, by decide⟩,
   ⟨⟨[com], [xs 64], rfl, by decide, by decide⟩, rfl⟩⟩

/-- Every outcome of a turn at the ends of its range: no length byte, length 0, 64, 1 and 63 with one byte
too few and just enough. -/
theorem witness_NameDecodeWalksTheLabels :
    (nameDecode (bytes [0x01, 0x61, 0x00]) Cursor.origin = .ok ([[0x61]], ⟨3, 0⟩) ∧
      nameDecode (bytes [0x40, 0x00]) Cursor.origin = .error .CompressionUnsupported) ∧
    8 * (bytes [0x00]).length < (Cursor.mk 0 1).pos + 8 ∧
    FieldIs (bytes [0x00]) 0 8 0 ∧ FieldIs (bytes [0x40]) 0 8 64 ∧
    (FieldIs (bytes [0x01]) 0 8 1 ∧ 8 * (bytes [0x01]).length < 0 + 8 + 8 * 1) ∧
    (FieldIs (0x3F :: xs 63) 0 8 63 ∧ 0 + 8 + 8 * 63 ≤ 8 * (0x3F :: xs 63).length) := by
  unfold FieldIs
  decide

theorem witness_NamesRoundTrip :
    labelsWellFormed [xs 63, xs 63, xs 63, xs 63, xs 63] = true ∧
    nameDecode (bytes [0x01, 0x61, 0x00, 0xff]) Cursor.origin = .ok ([[0x61]], ⟨3, 0⟩) ∧
    [0x61] ∈ ([[0x61]] : Name) := by decide

/-- The ends of the three classes, and a label's bytes that are just there or end one short. -/
theorem witness_LengthBytesByTheirClass :
    (0 : Byte).toNat = 0 ∧ (1 ≤ (1 : Byte).toNat ∧ (63 : Byte).toNat ≤ 63) ∧ 64 ≤ (64 : Byte).toNat ∧
    (sample ⟨1, 0⟩).cur.WellFormed (sample ⟨1, 0⟩).buf ∧ (2 : U6) ≠ 0 ∧
    (sample ⟨1, 0⟩).cur.pos + 8 * (2 : U6).toNat ≤ 8 * (sample ⟨1, 0⟩).buf.length ∧
    8 * (sample ⟨1, 1⟩).buf.length < (sample ⟨1, 1⟩).cur.pos + 8 * (2 : U6).toNat := by decide

theorem witness_QEncodeEmitsNameTypeClass :
    labelsWellFormed (Question.mk [xs 63] .A .IN).name = true ∧
    (FirstBadLabel (Question.mk [xs 64] .A .IN).name (xs 64) ∧ 64 ≤ (xs 64).length) ∧
    (FirstBadLabel (Question.mk [com, []] .A .IN).name [] ∧ ([] : Label).length = 0) :=
  ⟨by decide, ⟨⟨[], [], rfl, rfl, by decide⟩, by decide⟩, ⟨⟨[com], [], rfl, by decide, by decide⟩, rfl⟩⟩

/-- A name that fails; one with 8 bits behind it, a bad type, 8 bits for the class, a bad class, and a
question that decodes. -/
theorem witness_QDecodeReadsNameTypeClass :
    nameDecode (bytes [0xc0, 0x0c]) Cursor.origin = .error .CompressionUnsupported ∧
    (nameDecode (bytes [0x00, 0x00]) Cursor.origin = .ok ([], ⟨1, 0⟩) ∧
      8 * (bytes [0x00, 0x00]).length < (Cursor.mk 1 0).pos + 16) ∧
    (FieldIs (bytes [0x00, 0x00, 0xff]) 8 16 255 ∧ ∀ p ∈ recordTypeTable, p.1 ≠ 255) ∧
    (FieldIs (bytes [0x00, 0x00, 0x01, 0x00]) 8 16 1 ∧ (1, RecordType.A) ∈ recordTypeTable ∧
      8 * (bytes [0x00, 0x00, 0x01, 0x00]).length < (Cursor.mk 1 0).pos + 32) ∧
    (FieldIs (bytes [0x00, 0x00, 0x01, 0x00, 0x05]) 24 16 5 ∧ ∀ p ∈ recordClassTable, p.1 ≠ 5) ∧
    FieldIs (bytes [0x00, 0x00, 0x01, 0x00, 0x04]) 24 16 4 ∧ (4, RecordClass.HS) ∈ recordClassTable := by
  unfold FieldIs
  decide

theorem witness_QuestionsRoundTrip :
    labelsWellFormed (Question.mk [xs 63] .TXT .HS).name = true ∧
    qDecode (bytes [0x01, 0x61, 0x00, 0x00, 0x1c, 0x00, 0x01]) Cursor.origin =
      .ok (⟨[[0x61]], .AAAA, .IN⟩, ⟨7, 0⟩) := by decide

/-- Encoded lengths 256 and 255, the two label errors, and a name of labels of 63, 63, 63 and 61 bytes. -/
theorem witness_MsgBuildValidatesThenBuilds :
    let longest := xs 63 ++ 0x2E :: xs 63 ++ 0x2E :: xs 63 ++ 0x2E :: xs 61
    255 < encLen (nameSplit (xs 254)) ∧
    (encLen (nameSplit (xs 253)) ≤ 255 ∧ nameSplit (xs 253) = [xs 253] ∧ 63 < (xs 253).length) ∧
    nameSplit [0x2E] = [[], []] ∧
    encLen (nameSplit longest) ≤ 255 ∧ labelsWellFormed (nameSplit longest) = true := by decide +kernel

/-- The two first offending labels of the statement on MSG_BUILD. -/
theorem witness_MsgBuildValidatesThenBuilds_offenders :
    FirstBadLabel [xs 253] (xs 253) ∧ FirstBadLabel [[], []] [] :=
  ⟨⟨[], [], rfl, rfl, by decide +kernel⟩, ⟨[], [[]], rfl, rfl, by decide⟩⟩

theorem witness_MsgBuildBoundaries :
    (254 ≤ (xs 254).length ∧ ((0x2E : Byte) ∉ xs 253 ∧ 64 ≤ (xs 253).length ∧ (xs 253).length ≤ 253) ∧
      ((0x2E : Byte) ∉ xs 64 ∧ 64 ≤ (xs 64).length)) ∧
    ((0x2E : Byte) ∉ xs 63 ∧ 1 ≤ (xs 63).length ∧ (xs 63).length ≤ 63) ∧
    (xs 62 ++ [0x2E] : List Byte).length ≤ 63 ∧ (0x2E :: xs 62 : List Byte).length ≤ 63 ∧
    (xs 61 ++ [0x2E, 0x2E] : List Byte).length ≤ 63 := by decide +kernel

theorem witness_MsgEncodeConcatenates :
    (∀ q ∈ twoQuestions.qs, labelsWellFormed q.name = true) ∧
    (twoQuestions.qs ++ [⟨[xs 64], .A, .IN⟩] = twoQuestions.qs ++ ⟨[xs 64], .A, .IN⟩ :: [] ∧
      FirstBadLabel [xs 64] (xs 64) ∧ 64 ≤ (xs 64).length) ∧
    FirstBadLabel [[]] [] ∧ ([] : Label).length = 0 :=
  ⟨by decide, ⟨rfl, ⟨[], [], rfl, rfl, by decide⟩, by decide⟩, ⟨[], [], rfl, rfl, by decide⟩, rfl⟩

/-- A header that fails; the two questions, each where the one before it ended; and one question where two
are counted. -/
theorem witness_MsgDecodeReadsQdcountQuestions :
    hdrDecode [] Cursor.origin = .error .Truncated ∧
    hdrDecode twoQuestionsBytes Cursor.origin = .ok (twoQuestions.hdr, ⟨12, 0⟩) ∧
    qDecode twoQuestionsBytes ⟨12, 0⟩ = .ok (⟨[[0x61]], .A, .IN⟩, ⟨19, 0⟩) ∧
    qDecode twoQuestionsBytes ⟨19, 0⟩ = .ok (⟨[[0x62], [0x63]], .TXT, .CH⟩, ⟨28, 0⟩) ∧
    twoQuestions.qs.length = twoQuestions.hdr.qdcount.toNat ∧
    hdrDecode (twoQuestionsBytes.take 19) Cursor.origin = .ok (twoQuestions.hdr, ⟨12, 0⟩) ∧
    qDecode (twoQuestionsBytes.take 19) ⟨12, 0⟩ = .ok (⟨[[0x61]], .A, .IN⟩, ⟨19, 0⟩) ∧
    qDecode (twoQuestionsBytes.take 19) ⟨19, 0⟩ = .error .Underrun := by decide +kernel

theorem witness_MessagesRoundTrip :
    messageWellFormed twoQuestions = true ∧
    msgBuild 9 (xs 63) .A .IN = .ok ⟨hdrNew 9, [⟨[xs 63], .A, .IN⟩]⟩ ∧
    msgDecode (twoQuestionsBytes ++ [0xc0, 0x0c]) = .ok twoQuestions ∧
    (∀ q ∈ (Message.mk (hdrNew 1) []).qs, labelsWellFormed q.name = true) ∧
    (Message.mk (hdrNew 1) []).hdr.qdcount.toNat ≠ (Message.mk (hdrNew 1) []).qs.length := by decide +kernel

/-- The shortest message MSG_BUILD returns has 17 bytes, the longest 271. -/
theorem witness_BuiltMessagesAreShort :
    let longest := xs 63 ++ 0x2E :: xs 63 ++ 0x2E :: xs 63 ++ 0x2E :: xs 61
    (msgBuild 1 [] .NS .IN = .ok ⟨hdrNew 1, [⟨[], .NS, .IN⟩]⟩ ∧
      messageBytes ⟨hdrNew 1, [⟨[], .NS, .IN⟩]⟩ = bytes [0x00, 0x01, 0x01, 0x00, 0x00, 0x01, 0x00, 0x00, 0x00, 0x00,
        0x00, 0x00, 0x00, 0x00, 0x02, 0x00, 0x01]) ∧
    msgBuild 1 longest .A .IN = .ok ⟨hdrNew 1, [⟨[xs 63, xs 63, xs 63, xs 61], .A, .IN⟩]⟩ ∧
    (messageBytes ⟨hdrNew 1, [⟨[xs 63, xs 63, xs 63, xs 61], .A, .IN⟩]⟩).length = 271 := by decide +kernel

theorem witness_BytesBehindAreNotRead :
    Cursor.origin.WellFormed beefBytes ∧ hdrDecode beefBytes Cursor.origin = .ok (beef, ⟨12, 0⟩) ∧
    nameDecode (bytes [0x00]) Cursor.origin = .ok ([], ⟨1, 0⟩) ∧
    qDecode (bytes [0x00, 0x00, 0x01, 0x00, 0x04]) Cursor.origin = .ok (⟨[], .A, .HS⟩, ⟨5, 0⟩) ∧
    msgDecode twoQuestionsBytes = .ok twoQuestions := by decide +kernel

theorem witness_OperationsRaiseTheirErrorsOnly :
    Instr.msgDecode ∈ opselTable.map Prod.snd ∧ Instr.msgDecode ∈ raisedBy .Truncated ∧
    Instr.msgDecode ∉ raisedBy .NameTooLong ∧
    exec .msgDecode (on base) = .next ((on base).raise .Truncated) :=
  ⟨by decide, by decide, by decide, rfl⟩

theorem witness_OpselSelectsTheOperation :
    (0x1B, Instr.msgDecode) ∈ opselTable ∧ (∀ p ∈ opselTable, p.1 ≠ (0 : BitVec 5).toNat) ∧
    ∀ p ∈ opselTable, p.1 ≠ (0x1C : BitVec 5).toNat := by decide

theorem witness_EncodeThenDecode :
    (Instr.message twoQuestions).WellFormed = true ∧ (Instr.label (xs 63)).WellFormed = true ∧
    (Instr.lengthByteLabel 63).WellFormed = true := by decide

theorem witness_DecodeYieldsWellFormed :
    decode (.op 0x1A) = .ok .msgEncode ∧ decode (.wire .label (bytes [0x01, 0x61])) = .ok (.label [0x61]) := by decide

theorem witness_CodesDeliverTheirVariants : (Instr.recordTypeAAAA, Result.rtype .AAAA) ∈ codeRows := by decide

end Sys2Proof.Tests
end

section
/-!
PROOFS. How far each read and each decoder moves the cursor, and what it yields when it succeeds.
-/

namespace Sys2Proof.Machine

/-- A sequence of two reads succeeds exactly when both do, the second on what the first gave. -/
theorem bind_eq_ok {ε α β : Type} {x : Except ε α} {f : α → Except ε β} {b : β} :
    x >>= f = .ok b ↔ ∃ a, x = .ok a ∧ f a = .ok b := by
  cases x with
  | error e => exact ⟨nofun, fun ⟨_, h, _⟩ => nomatch h⟩
  | ok a => exact ⟨fun h => ⟨a, rfl, h⟩, fun ⟨_, h, hf⟩ => by cases h; exact hf⟩

/-- `c'` is the canonical cursor `k` bits behind `c`, and not past the end of the buffer (R24). -/
def Advances (buf : List Byte) (c c' : Cursor) (k : Nat) : Prop :=
  c' = Cursor.ofPos (c.pos + k) ∧ c.pos + k ≤ 8 * buf.length

theorem Advances.pos_eq {buf : List Byte} {c c' : Cursor} {k : Nat} (h : Advances buf c c' k) :
    c'.pos = c.pos + k := by
  rw [h.1, Cursor.pos_ofPos]

theorem Advances.wellFormed {buf : List Byte} {c c' : Cursor} {k : Nat} (h : Advances buf c c' k) :
    c'.WellFormed buf := by
  rw [h.1]; exact Cursor.ofPos_wellFormed h.2

theorem Advances.trans {buf : List Byte} {c c' c'' : Cursor} {j k : Nat} (h : Advances buf c c' j)
    (h' : Advances buf c' c'' k) : Advances buf c c'' (j + k) := by
  obtain ⟨heq, hle⟩ := h'
  rw [h.pos_eq, Nat.add_assoc] at heq hle
  exact ⟨heq, hle⟩

/-! ## The reads -/

theorem take_advances {buf : List Byte} {c c' : Cursor} {n v : Nat} (hn : 1 ≤ n)
    (h : take buf c n = .ok (c', v)) : Advances buf c c' n := by
  obtain ⟨hle, heq⟩ | ⟨-, heq⟩ := take_cases buf c n hn
  · rw [heq] at h; cases h; exact ⟨rfl, hle⟩
  · rw [heq] at h; cases h

theorem takeBit_advances {buf : List Byte} {c c' : Cursor} {b : Bool}
    (h : takeBit buf c = .ok (c', b)) : Advances buf c c' 1 := by
  obtain ⟨_, ht, h⟩ := bind_eq_ok.mp h
  cases h; exact take_advances (by decide) ht

theorem takeNibble_advances {buf : List Byte} {c c' : Cursor} {v : U4}
    (h : takeNibble buf c = .ok (c', v)) : Advances buf c c' 4 := by
  obtain ⟨_, ht, h⟩ := bind_eq_ok.mp h
  cases h; exact take_advances (by decide) ht

theorem takeU16_advances {buf : List Byte} {c c' : Cursor} {v : U16}
    (h : takeU16 buf c = .ok (c', v)) : Advances buf c c' 16 := by
  obtain ⟨_, ht, h⟩ := bind_eq_ok.mp h
  cases h; exact take_advances (by decide) ht

theorem takeByte_advances {buf : List Byte} {c c' : Cursor} {v : Byte}
    (h : takeByte buf c = .ok (c', v)) : Advances buf c c' 8 := by
  obtain ⟨_, ht, h⟩ := bind_eq_ok.mp h
  cases h; exact take_advances (by decide) ht

/-- Reading a label of `k` bytes from a well-formed cursor moves it by those bytes. -/
theorem readLabel_advances {buf : List Byte} {k : Nat} {c c' : Cursor} {l : Label}
    (hc : c.WellFormed buf) (h : readLabel buf k c = .ok (l, c')) : Advances buf c c' (8 * k) := by
  rw [← Cursor.ofPos_pos c hc.1] at h
  by_cases hle : c.pos + 8 * k ≤ 8 * buf.length
  · rw [readLabel_of_le buf k c.pos hle] at h; cases h; exact ⟨rfl, hle⟩
  · rw [readLabel_of_lt buf k c.pos hc.2 (by omega)] at h; cases h

/-! ## The decoders -/

/-- HDR_DECODE reads 96 bits (R125). -/
theorem hdrDecode_advances {buf : List Byte} {c c' : Cursor} {h : Header}
    (hd : hdrDecode buf c = .ok (h, c')) : Advances buf c c' 96 := by
  by_cases hle : c.pos + 96 ≤ 8 * buf.length
  · rw [hdrDecode_of_le hle] at hd
    split at hd
    · cases hd
    · split at hd
      · cases hd
      · split at hd
        · cases hd
        · obtain ⟨-, rfl⟩ := Prod.mk.inj (Except.ok.inj hd)
          exact ⟨rfl, hle⟩
  · rw [hdrDecode_of_lt (by omega)] at hd; cases hd

/-- A name that NAME_DECODE reads has labels of 1 to 63 bytes only, and the cursor moves by its encoded
bytes (R134, R135 (c)). The induction is on the name: each turn of the loop is one label of it. -/
theorem nameDecode_ok {buf : List Byte} {n : Name} {c c' : Cursor}
    (h : nameDecode buf c = .ok (n, c')) :
    labelsWellFormed n = true ∧ Advances buf c c' (8 * encLen n) := by
  rw [← nameDecode_ofPos] at h
  unfold Advances
  generalize c.pos = p at h ⊢
  induction n generalizing p with
  | nil =>
    rw [nameDecode_eq] at h
    split_ifs at h
    · cases h; exact ⟨rfl, rfl, by rw [encLen_nil]; omega⟩
    · split at h <;> cases h
  | cons l n ih =>
    rw [nameDecode_eq] at h
    generalize memRead buf p 8 = len at h
    split_ifs at h
    · cases h
    · split at h
      · next hrest =>
        obtain ⟨hlist, rfl⟩ := Prod.mk.inj (Except.ok.inj h)
        obtain ⟨rfl, rfl⟩ := List.cons.inj hlist
        obtain ⟨hn, hc', hle⟩ := ih _ hrest
        rw [labelsWellFormed_cons, labelWellFormed_iff, encLen_cons, bytesFrom_length]
        refine ⟨⟨by omega, hn⟩, ?_, by omega⟩
        rw [hc']; congr 1; omega
      · cases h

/-- What a successful Q_DECODE has read: the name, and 32 more bits behind it (R142). -/
theorem qDecode_ok {buf : List Byte} {q : Question} {c c' : Cursor}
    (h : qDecode buf c = .ok (q, c')) :
    labelsWellFormed q.name = true ∧ Advances buf c c' (8 * (encLen q.name + 4)) := by
  obtain ⟨⟨n, c₁⟩, hname, h⟩ := bind_eq_ok.mp h
  obtain ⟨⟨c₂, t⟩, htype, h⟩ := bind_eq_ok.mp h
  obtain ⟨qtype, -, h⟩ := bind_eq_ok.mp h
  obtain ⟨⟨c₃, k⟩, hclass, h⟩ := bind_eq_ok.mp h
  obtain ⟨qclass, -, h⟩ := bind_eq_ok.mp h
  cases h
  obtain ⟨hlabels, hadv⟩ := nameDecode_ok hname
  exact ⟨hlabels, (hadv.trans (takeU16_advances htype)).trans (takeU16_advances hclass)⟩

end Sys2Proof.Machine

namespace Sys2Proof.Proofs

open Machine

/-- Settles O18, by what each decoder is known to have read when it succeeds. -/
theorem decodersAdvanceByWhatTheyRead : Obligations.DecodersAdvanceByWhatTheyRead := by
  intro buf c _
  refine ⟨fun h c' hd => ?_, fun n c' hd => ?_, fun q c' hd => ?_⟩
  · exact ⟨(hdrDecode_advances hd).pos_eq, (hdrDecode_advances hd).wellFormed⟩
  · exact ⟨(nameDecode_ok hd).2.pos_eq, (nameDecode_ok hd).2.wellFormed⟩
  · exact ⟨(qDecode_ok hd).2.pos_eq, (qDecode_ok hd).2.wellFormed⟩

end Sys2Proof.Proofs
end

section
/-!
PROOFS. What a step can do, said once: every instruction delivers one response, sound when the instruction
is, and only the encoders of bits and MSG_ENCODE write `OUT`.
-/

namespace Sys2Proof.Machine

open Spec

/-! ## What an instruction delivers -/

/-- The instructions that write `OUT` (R28, R29). -/
def outWriters : List Instr :=
  [.rtypeBits, .rclassBits, .opcodeBits, .rcodeBits, .hdrEncode, .nameEncode, .qEncode, .msgEncode]

/-- An output bit sequence of 4 bits or of whole bytes. -/
def WholeOut (out : List Bool) : Prop :=
  out.length = 4 ∨ 8 ∣ out.length

/-- The cursor in a response is well-formed for the buffer and not behind the cursor operand (R24). -/
def CursorSound (a : Operands) (r : Response) : Prop :=
  ∀ c, cursorOf r = some c → c.WellFormed a.buf ∧ a.cur.pos ≤ c.pos

/-- A result that keeps the invariant when a well-formed `i` delivers it on the operands `a`. -/
def ResultSound (i : Instr) (a : Operands) (v : Result) : Prop :=
  (i.WellFormed = true → ResponseSound (.ok v)) ∧ CursorSound a (.ok v)

/-- `s'` is `s` with one more response, `OUT` rewritten only by the encoders of bits. -/
def Delivers (i : Instr) (s s' : State) : Prop :=
  ∃ out r, s' = (s.setOut out).deliver r ∧ (out = s.out ∨ i ∈ outWriters ∧ WholeOut out) ∧
    (i.WellFormed = true → ResponseSound r) ∧ CursorSound s.args r

/-- An error is sound and carries no cursor. -/
theorem delivers_raise (i : Instr) (s : State) (e : Err) : Delivers i s (s.raise e) :=
  ⟨s.out, .err e, rfl, .inl rfl, fun _ => trivial, nofun⟩

theorem delivers_conclude {i : Instr} {s s' : State} {r : Except Err Result}
    (h : s.conclude r = .next s') (hr : ∀ v, r = .ok v → ResultSound i s.args v) :
    Delivers i s s' := by
  obtain ⟨v, hv, hs⟩ | ⟨e, -, hs⟩ := conclude_cases s r
  · rw [hs] at h; cases h
    obtain ⟨hsound, hcur⟩ := hr v hv
    exact ⟨s.out, .ok v, rfl, .inl rfl, hsound, hcur⟩
  · rw [hs] at h; cases h
    exact delivers_raise i s e

/-- A transaction that goes on with what a read or a decode yields. -/
theorem delivers_bind {α : Type} {i : Instr} {s s' : State} {x : Except Err α}
    {f : α → Except Err Result} (h : s.conclude (x >>= f) = .next s')
    (hr : ∀ a v, x = .ok a → f a = .ok v → ResultSound i s.args v) : Delivers i s s' :=
  delivers_conclude h fun v hv => by
    obtain ⟨a, hx, hf⟩ := bind_eq_ok.mp hv
    exact hr a v hx hf

/-- A transaction that cannot fail. -/
theorem delivers_ok {i : Instr} {s s' : State} {v : Result} (h : s.conclude (.ok v) = .next s')
    (hv : ResultSound i s.args v) : Delivers i s s' :=
  delivers_conclude h fun _ hw => Except.ok.inj hw ▸ hv

theorem delivers_concludeOut {i : Instr} {s s' : State} {f : List Bool → Result}
    {r : Except Err (List Bool)} (h : s.concludeOut f r = .next s') (hi : i ∈ outWriters)
    (hr : ∀ out, r = .ok out → WholeOut out ∧ ResultSound i s.args (f out)) : Delivers i s s' := by
  obtain ⟨out, hout, hs⟩ | ⟨e, -, hs⟩ := concludeOut_cases s f r
  · rw [hs] at h; cases h
    obtain ⟨hwhole, hsound, hcur⟩ := hr out hout
    exact ⟨out, .ok (f out), rfl, .inr ⟨hi, hwhole⟩, hsound, hcur⟩
  · rw [hs] at h; cases h
    exact delivers_raise i s e

/-- An encoder that delivers its bits delivers a sound result when the bits are whole. -/
theorem delivers_bits {i : Instr} {s s' : State} {r : Except Err (List Bool)}
    (h : s.concludeOut .bits r = .next s') (hi : i ∈ outWriters)
    (hr : ∀ out, r = .ok out → WholeOut out) : Delivers i s s' :=
  delivers_concludeOut h hi fun out hout => ⟨hr out hout, fun _ => hr out hout, nofun⟩

theorem delivers_bits_ok {i : Instr} {s s' : State} {bits : List Bool}
    (h : s.concludeOut .bits (.ok bits) = .next s') (hi : i ∈ outWriters) (hb : WholeOut bits) :
    Delivers i s s' :=
  delivers_bits h hi fun _ hout => Except.ok.inj hout ▸ hb

/-- A response that carries the cursor `c` is sound when `c` is an advance of the cursor operand. -/
theorem cursorSound_of_advances {a : Operands} {r : Response} {c : Cursor} {k : Nat}
    (hr : cursorOf r = some c) (h : Advances a.buf a.cur c k) : CursorSound a r := by
  intro c' hc'
  cases hr.symm.trans hc'
  exact ⟨h.wellFormed, by rw [h.pos_eq]; omega⟩

/-! ## The codes and the encoders -/

theorem rtypeEncode_range (v : RecordType) :
    1 ≤ (rtypeEncode v).toNat ∧ (rtypeEncode v).toNat ≤ 28 := by cases v <;> decide

theorem rclassEncode_range (v : RecordClass) :
    1 ≤ (rclassEncode v).toNat ∧ (rclassEncode v).toNat ≤ 28 := by cases v <;> decide

theorem opcodeEncode_le (v : Opcode) : (opcodeEncode v).toNat ≤ 5 := by cases v <;> decide

theorem rcodeEncode_le (v : ResponseCode) : (rcodeEncode v).toNat ≤ 5 := by cases v <;> decide

@[simp] theorem hdrEncode_length (h : Header) : (hdrEncode h).length = 96 := by
  simp [hdrEncode]

/-- The bits of a name are whole bytes: those of its encoded length (R132). -/
theorem emitLabels_length {out bits : List Bool} {n : Name} (h : emitLabels out n = .ok bits) :
    bits.length = out.length + 8 * encLen n := by
  induction n generalizing out with
  | nil => cases h; simp
  | cons l n ih =>
    rw [emitLabels] at h
    split_ifs at h
    rw [ih h, emitBytes_eq, encLen_cons]
    simp [List.length_flatMap]
    omega

theorem nameEncode_length {n : Name} {bits : List Bool} (h : nameEncode n = .ok bits) :
    bits.length = 8 * encLen n := by
  simpa using emitLabels_length h

theorem qEncode_length {q : Question} {bits : List Bool} (h : qEncode q = .ok bits) :
    bits.length = 8 * (encLen q.name + 4) := by
  obtain ⟨out, hname, h⟩ := bind_eq_ok.mp h
  cases h
  simp [nameEncode_length hname, rtypeBits, rclassBits]
  omega

/-- Questions add whole bytes (R153). -/
theorem emitQuestions_length {out bits : List Bool} {qs : List Question}
    (h : emitQuestions out qs = .ok bits) : ∃ k, bits.length = out.length + 8 * k := by
  induction qs generalizing out with
  | nil => cases h; exact ⟨0, rfl⟩
  | cons q qs ih =>
    obtain ⟨qbits, hq, h⟩ := bind_eq_ok.mp h
    obtain ⟨k, hk⟩ := ih h
    refine ⟨encLen q.name + 4 + k, ?_⟩
    rw [hk, List.length_append, qEncode_length hq]
    omega

/-- The bits of a message are whole bytes, the 12 of its header among them (R153). -/
theorem msgBits_length {m : Message} {bits : List Bool} (h : msgBits m = .ok bits) :
    ∃ k, bits.length = 8 * (12 + k) := by
  obtain ⟨k, hk⟩ := emitQuestions_length h
  exact ⟨k, by rw [hk, hdrEncode_length]; omega⟩

/-! ## What is decoded or built is well-formed -/

theorem readLabel_wellFormed {buf : List Byte} {k : Nat} {c c' : Cursor} {l : Label}
    (h : readLabel buf k c = .ok (l, c')) (h1 : 1 ≤ k) (h63 : k ≤ 63) : labelWellFormed l = true := by
  rw [labelWellFormed_iff, readLabel_length h]
  exact ⟨h1, h63⟩

theorem readQuestions_labels {buf : List Byte} {k : Nat} {c : Cursor} {qs : List Question}
    (h : readQuestions buf k c = .ok qs) : ∀ q ∈ qs, labelsWellFormed q.name = true := by
  induction k generalizing c qs with
  | zero => cases h; nofun
  | succ k ih =>
    obtain ⟨⟨q, c'⟩, hq, h⟩ := bind_eq_ok.mp h
    obtain ⟨rest, hrest, h⟩ := bind_eq_ok.mp h
    cases h
    exact List.forall_mem_cons.mpr ⟨(qDecode_ok hq).1, ih hrest⟩

theorem messageWellFormed_iff (m : Message) : messageWellFormed m = true ↔
    m.hdr.qdcount.toNat = m.qs.length ∧ ∀ q ∈ m.qs, labelsWellFormed q.name = true := by
  simp [messageWellFormed]

/-- MSG_DECODE reads as many questions as the header counts, each with good labels (R155). -/
theorem msgDecode_wellFormed {b : List Byte} {m : Message} (h : msgDecode b = .ok m) :
    messageWellFormed m = true := by
  obtain ⟨⟨hdr, c⟩, -, h⟩ := bind_eq_ok.mp h
  obtain ⟨qs, hqs, h⟩ := bind_eq_ok.mp h
  cases h
  exact (messageWellFormed_iff _).mpr ⟨(readQuestions_length hqs).symm, readQuestions_labels hqs⟩

/-- MSG_BUILD counts its one question and has checked its labels (R151). -/
theorem msgBuild_wellFormed {id : U16} {str : List Byte} {t : RecordType} {k : RecordClass}
    {m : Message} (h : msgBuild id str t k = .ok m) : messageWellFormed m = true := by
  rw [msgBuild_eq] at h
  split_ifs at h
  split at h
  · cases h
  · next hlabels =>
    cases h
    refine (messageWellFormed_iff _).mpr ⟨rfl, ?_⟩
    simpa using (checkLabels_ok _).mp hlabels

/-! ## The one case analysis of `exec` -/

/-- What an instruction that takes a step has done (R20, R24, R29). -/
theorem exec_delivers {i : Instr} {s s' : State} (h : exec i s = .next s') : Delivers i s s' := by
  cases i
  case take =>
    obtain ⟨⟨hn, -⟩, h⟩ := withWidth_next h
    refine delivers_bind (withCursor_next h).2 ?_
    rintro ⟨c, x⟩ _ hread ⟨⟩
    exact ⟨fun _ => trivial, cursorSound_of_advances rfl (take_advances hn hread)⟩
  case takeBit =>
    refine delivers_bind (withCursor_next h).2 ?_
    rintro ⟨c, x⟩ _ hread ⟨⟩
    exact ⟨fun _ => trivial, cursorSound_of_advances rfl (takeBit_advances hread)⟩
  case takeNibble =>
    refine delivers_bind (withCursor_next h).2 ?_
    rintro ⟨c, x⟩ _ hread ⟨⟩
    exact ⟨fun _ => trivial, cursorSound_of_advances rfl (takeNibble_advances hread)⟩
  case takeU16 =>
    refine delivers_bind (withCursor_next h).2 ?_
    rintro ⟨c, x⟩ _ hread ⟨⟩
    exact ⟨fun _ => trivial, cursorSound_of_advances rfl (takeU16_advances hread)⟩
  case hdrDecode =>
    refine delivers_bind (withCursor_next h).2 ?_
    rintro ⟨hdr, c⟩ _ hread ⟨⟩
    exact ⟨fun _ => trivial, cursorSound_of_advances rfl (hdrDecode_advances hread)⟩
  case nameDecode =>
    refine delivers_bind (withCursor_next h).2 ?_
    rintro ⟨n, c⟩ _ hread ⟨⟩
    obtain ⟨hlabels, hadv⟩ := nameDecode_ok hread
    exact ⟨fun _ => hlabels, cursorSound_of_advances rfl hadv⟩
  case qDecode =>
    refine delivers_bind (withCursor_next h).2 ?_
    rintro ⟨q, c⟩ _ hread ⟨⟩
    obtain ⟨hlabels, hadv⟩ := qDecode_ok hread
    exact ⟨fun _ => hlabels, cursorSound_of_advances rfl hadv⟩
  case lengthByteRoot =>
    obtain ⟨hc, h⟩ := withCursor_next h
    exact delivers_ok h ⟨fun _ => trivial, fun c heq => by cases heq; exact ⟨hc, Nat.le_refl _⟩⟩
  case lengthByteLabel len =>
    obtain ⟨hc, h⟩ := withCursor_next h
    refine delivers_bind h ?_
    rintro ⟨l, c⟩ _ hread ⟨⟩
    exact ⟨fun _ => trivial, cursorSound_of_advances rfl (readLabel_advances hc hread)⟩
  case rtypeEncode => exact delivers_ok h ⟨fun _ => rtypeEncode_range _, nofun⟩
  case rclassEncode => exact delivers_ok h ⟨fun _ => rclassEncode_range _, nofun⟩
  case opcodeEncode => exact delivers_ok h ⟨fun _ => opcodeEncode_le _, nofun⟩
  case rcodeEncode => exact delivers_ok h ⟨fun _ => rcodeEncode_le _, nofun⟩
  case rtypeDecode | rclassDecode | opcodeDecode | rcodeDecode =>
    refine delivers_bind h ?_
    rintro x _ _ ⟨⟩
    exact ⟨fun _ => trivial, nofun⟩
  case rtypeBits | rclassBits => exact delivers_bits_ok h (by decide) (.inr ⟨2, bitsN_length _⟩)
  case opcodeBits | rcodeBits => exact delivers_bits_ok h (by decide) (.inl (bitsN_length _))
  case hdrEncode => exact delivers_bits_ok h (by decide) (.inr ⟨12, hdrEncode_length _⟩)
  case nameEncode => exact delivers_bits h (by decide) fun _ hout => .inr ⟨_, nameEncode_length hout⟩
  case qEncode => exact delivers_bits h (by decide) fun _ hout => .inr ⟨_, qEncode_length hout⟩
  case msgEncode =>
    refine delivers_concludeOut h (by decide) fun out hout => ?_
    obtain ⟨k, hk⟩ := msgBits_length hout
    refine ⟨.inr ⟨_, hk⟩, fun _ => ?_, nofun⟩
    show 12 ≤ (pack out).length
    rw [pack_length, hk]
    omega
  case msgBuild =>
    refine delivers_bind h ?_
    rintro m _ hm ⟨⟩
    exact ⟨fun _ => msgBuild_wellFormed hm, nofun⟩
  case msgDecode =>
    refine delivers_bind h ?_
    rintro m _ hm ⟨⟩
    exact ⟨fun _ => msgDecode_wellFormed hm, nofun⟩
  case label | question | message => exact delivers_ok h ⟨fun hi => hi, nofun⟩
  case lengthByteReserved01 | lengthByteReserved10 | lengthByteReserved11 =>
    cases h; exact delivers_raise _ _ _
  -- HDR_NEW, NAME_SPLIT, a header, a name and the codes: any value of their result is sound.
  all_goals exact delivers_ok h ⟨fun _ => trivial, nofun⟩

end Sys2Proof.Machine
end

section
/-!
PROOFS. The decoder yields well-formed instructions only, what a step can do, and the statements that follow:
the frame of every instruction and the invariant.
-/

namespace Sys2Proof.Machine

open Spec

/-! ## The decoder -/

theorem decodeOpsel_wellFormed {k : BitVec 5} {i : Instr} (h : decodeOpsel k = .ok i) :
    i.WellFormed = true := by
  unfold decodeOpsel at h
  split at h <;> cases h <;> rfl

theorem decodeLengthByte_wellFormed (b : Byte) : (decodeLengthByte b).WellFormed = true := by
  simp only [decodeLengthByte]
  split
  · split
    · rfl
    · next hx => exact decide_eq_true hx
  all_goals rfl

theorem decodeLabel_wellFormed {b : List Byte} {i : Instr} (h : decodeLabel b = .ok i) :
    i.WellFormed = true := by
  obtain ⟨⟨c, len⟩, -, h⟩ := bind_eq_ok.mp h
  dsimp only at h
  split_ifs at h with h0 h64
  · cases h; rfl
  · obtain ⟨_, ⟨⟩, -⟩ := bind_eq_ok.mp h
  · obtain ⟨⟨l, c'⟩, hl, h⟩ := bind_eq_ok.mp h
    cases h
    exact readLabel_wellFormed hl (by omega) (by omega)

theorem recordTypeRow_wellFormed (v : RecordType) : (recordTypeRow v).WellFormed = true := by
  cases v <;> rfl

theorem recordClassRow_wellFormed (v : RecordClass) : (recordClassRow v).WellFormed = true := by
  cases v <;> rfl

theorem opcodeRow_wellFormed (v : Opcode) : (opcodeRow v).WellFormed = true := by
  cases v <;> rfl

theorem responseCodeRow_wellFormed (v : ResponseCode) : (responseCodeRow v).WellFormed = true := by
  cases v <;> rfl

theorem decodeElement_wellFormed {f : WireFormat} {b : List Byte} {i : Instr}
    (h : decodeElement f b = .ok i) : i.WellFormed = true := by
  cases f
  case label => exact decodeLabel_wellFormed h
  all_goals obtain ⟨x, hx, h⟩ := bind_eq_ok.mp h
  case hdr96 => cases h; rfl
  case len8 => cases h; exact decodeLengthByte_wellFormed _
  case name => cases h; exact (nameDecode_ok hx).1
  case question => cases h; exact (qDecode_ok hx).1
  case message => cases h; exact msgDecode_wellFormed hx
  all_goals obtain ⟨v, -, h⟩ := bind_eq_ok.mp h; cases h
  case rtype16 => exact recordTypeRow_wellFormed v
  case rclass16 => exact recordClassRow_wellFormed v
  case opcode4 => exact opcodeRow_wellFormed v
  case rcode4 => exact responseCodeRow_wellFormed v

theorem decode_wellFormed {r : Request} {i : Instr} (h : decode r = .ok i) : i.WellFormed = true := by
  cases r with
  | op k => exact decodeOpsel_wellFormed h
  | wire f b =>
    rw [decode] at h
    cases hb : decodeElement f b with
    | ok j => rw [hb] at h; cases h; exact decodeElement_wellFormed hb
    | error e => rw [hb] at h; cases h

/-! ## A step -/

theorem step_idle {s : State} (h : s.pending = []) : step s = .next s := by
  unfold step; rw [h]

/-- Every way to take a step with a transaction pending: the decoded instruction runs, or the bytes
presented are no element of their format. -/
theorem step_cases {s s' : State} {t : Transaction} {rest : List Transaction}
    (hp : s.pending = t :: rest) (h : step s = .next s') :
    (∃ i, decode t.request = .ok i ∧ exec i (s.begin t rest) = .next s') ∨
    ∃ e, decode t.request = .error (.badElement e) ∧ s' = (s.begin t rest).raise e := by
  simp only [step, hp] at h
  split at h
  · next i hi => exact .inl ⟨i, hi, h⟩
  · next r hr =>
    cases r with
    | unknownOpsel => cases h
    | badElement e => cases h; exact .inr ⟨e, hr, rfl⟩

/-- A step with a transaction pending delivers as a well-formed instruction does. An error raised by the
decoder is what any instruction may deliver. -/
theorem step_delivers {s s' : State} {t : Transaction} {rest : List Transaction}
    (hp : s.pending = t :: rest) (h : step s = .next s') :
    ∃ i, i.WellFormed = true ∧ Delivers i (s.begin t rest) s' := by
  obtain ⟨i, hi, hx⟩ | ⟨e, -, rfl⟩ := step_cases hp h
  · exact ⟨i, decode_wellFormed hi, exec_delivers hx⟩
  · exact ⟨.take, rfl, delivers_raise _ _ e⟩

/-! ## The invariant -/

/-- A well-formed instruction's delivery meets the invariant, if earlier results are sound and `OUT` is
whole; the operands' cursor and the last result of the state before do not matter. -/
theorem inv_of_delivers {i : Instr} {s s' : State} (hi : i.WellFormed = true)
    (hres : ∀ r ∈ s.results, ResponseSound r) (hout : WholeOut s.out) (h : Delivers i s s') :
    Inv s' := by
  obtain ⟨out, r, rfl, hwrite, hsound, hcur⟩ := h
  refine ⟨fun x hx => ?_, fun x c hlast hc => ?_, ?_⟩
  · obtain hx | rfl := (by simpa using hx : x ∈ s.results ∨ x = r)
    · exact hres x hx
    · exact hsound hi
  · obtain rfl : r = x := by simpa using hlast
    exact hcur c hc
  · obtain rfl | ⟨-, hwhole⟩ := hwrite
    · exact hout
    · exact hwhole

end Sys2Proof.Machine

namespace Sys2Proof.Proofs

open Machine Spec

/-- Settles O8: a step is one well-formed instruction's delivery from the begun state, whose results are
the old ones and whose `OUT` is empty. -/
theorem everyStepKeepsTheInvariant : Obligations.EveryStepKeepsTheInvariant := by
  intro s s' hinv h
  cases hp : s.pending with
  | nil => rw [step_idle hp] at h; cases h; exact hinv
  | cons t rest =>
    obtain ⟨i, hi, hdel⟩ := step_delivers hp h
    exact inv_of_delivers (s := s.begin t rest) hi hinv.1 (.inr ⟨0, rfl⟩) hdel

/-- Settles O7: after reset there is no result, and `OUT` is empty. -/
theorem invariantHoldsAtReset : Obligations.InvariantHoldsAtReset := by
  refine ⟨fun _ hr => ?_, fun _ _ hr => ?_, .inr ⟨0, rfl⟩⟩
  · exact absurd hr List.not_mem_nil
  · cases hr

/-- Settles O1, by the one case analysis of `exec`. -/
theorem everyInstructionsFrame : Obligations.EveryInstructionsFrame := by
  intro i s s' h
  obtain ⟨out, r, rfl, hwrite, -, -⟩ := exec_delivers h
  refine ⟨rfl, rfl, fun _ => rfl, ⟨r, rfl⟩, fun hi => ?_⟩
  obtain rfl | ⟨hmem, -⟩ := hwrite
  · rfl
  · exact absurd hmem hi

end Sys2Proof.Proofs
end

section
/-!
PROOFS. What a transaction is answered depends on that transaction alone (R21): a step is the step that the
transaction takes when presented alone after reset, moved behind the results already delivered.
-/

namespace Sys2Proof.Machine

/-- `s` with nothing pending and no result delivered: what an instruction can see of it. -/
def State.alone (s : State) : State :=
  { s with pending := [], results := [] }

/-- A step taken alone, as the block takes it with the transactions of `s` pending and its results
delivered before. -/
def behind (s : State) : Step → Step
  | .next s' => .next { s' with pending := s.pending, results := s.results ++ s'.results }
  | .fault r => .fault r
  | .refused r => .refused r

theorem conclude_behind (s : State) (r : Except Err Result) :
    s.conclude r = behind s (s.alone.conclude r) := by
  cases r <;> rfl

theorem concludeOut_behind (s : State) (f : List Bool → Result) (r : Except Err (List Bool)) :
    s.concludeOut f r = behind s (s.alone.concludeOut f r) := by
  cases r <;> rfl

theorem withCursor_behind {s : State} {k k' : Step} (h : k = behind s k') :
    s.withCursor k = behind s (s.alone.withCursor k') := by
  by_cases hc : s.args.cur.WellFormed s.args.buf
  · rw [withCursor_of_wellFormed s k hc, withCursor_of_wellFormed s.alone k' hc, h]
  · rw [withCursor_of_illFormed s k hc, withCursor_of_illFormed s.alone k' hc]; rfl

theorem withWidth_behind {s : State} {k k' : Step} (h : k = behind s k') :
    s.withWidth k = behind s (s.alone.withWidth k') := by
  by_cases hn : 1 ≤ s.args.n ∧ s.args.n ≤ 16
  · rw [withWidth_of_inContract s k hn.1 hn.2, withWidth_of_inContract s.alone k' hn.1 hn.2, h]
  · rw [withWidth_of_outOfContract s k hn, withWidth_of_outOfContract s.alone k' hn]; rfl

/-- No instruction sees the pending transactions or the earlier results (R21). -/
theorem exec_behind (i : Instr) (s : State) : exec i s = behind s (exec i s.alone) := by
  cases i
  case take => exact withWidth_behind (withCursor_behind (conclude_behind s _))
  case takeBit | takeNibble | takeU16 | hdrDecode | nameDecode | qDecode | lengthByteRoot
      | lengthByteLabel => exact withCursor_behind (conclude_behind s _)
  case nameEncode | qEncode | msgEncode => exact concludeOut_behind s _ _
  case rtypeDecode | rclassDecode | opcodeDecode | rcodeDecode | msgBuild | msgDecode =>
    exact conclude_behind s _
  -- The others cannot fail, or always do: both sides compute to the one delivery.
  all_goals rfl

/-- A step with `t` the oldest pending transaction is the step `t` takes when it is the only one ever
presented, behind the results of `s` and with the rest still pending. -/
theorem step_behind {s : State} {t : Transaction} {rest : List Transaction} (h : s.pending = t :: rest) :
    step s = behind (s.begin t rest) (step { State.reset with pending := [t] }) := by
  simp only [step, h]
  cases decode t.request with
  | ok i =>
    show exec i (s.begin t rest) = behind (s.begin t rest) (exec i (s.begin t rest).alone)
    exact exec_behind i _
  | error r => cases r <;> rfl

/-! ## Within the contract -/

theorem conclude_next (s : State) (r : Except Err Result) : ∃ s', s.conclude r = .next s' := by
  obtain ⟨_, -, h⟩ | ⟨_, -, h⟩ := conclude_cases s r <;> exact ⟨_, h⟩

theorem concludeOut_next (s : State) (f : List Bool → Result) (r : Except Err (List Bool)) :
    ∃ s', s.concludeOut f r = .next s' := by
  obtain ⟨_, -, h⟩ | ⟨_, -, h⟩ := concludeOut_cases s f r <;> exact ⟨_, h⟩

/-- An instruction takes a step on operands within its contract (R175). -/
theorem exec_next_of_inContract {i : Instr} {s : State} (h : OperandsInContract i s.args) :
    ∃ s', exec i s = .next s' := by
  obtain ⟨hcur, hwidth⟩ := h
  cases i
  case take =>
    obtain ⟨hlo, hhi⟩ := hwidth rfl
    rw [exec, execTake, withWidth_of_inContract s _ hlo hhi, withCursor_of_wellFormed s _ (hcur rfl)]
    exact conclude_next s _
  case takeBit | takeNibble | takeU16 | hdrDecode | nameDecode | qDecode | lengthByteRoot
      | lengthByteLabel =>
    obtain ⟨s', hs⟩ := conclude_next s _
    exact ⟨s', (withCursor_of_wellFormed s _ (hcur rfl)).trans hs⟩
  case nameEncode | qEncode | msgEncode => exact concludeOut_next s _ _
  case rtypeDecode | rclassDecode | opcodeDecode | rcodeDecode | msgBuild | msgDecode =>
    exact conclude_next s _
  all_goals exact ⟨_, rfl⟩

/-- A transaction within the contract takes a step (R175, R192). -/
theorem step_next_of_inContract {s : State} {t : Transaction} {rest : List Transaction}
    (h : s.pending = t :: rest) (ht : InContract t) : ∃ s', step s = .next s' := by
  simp only [step, h]
  unfold InContract at ht
  split at ht
  · next i hi => rw [hi]; exact exec_next_of_inContract ht
  · exact ht.elim
  · next e he => rw [he]; exact ⟨_, rfl⟩

/-- A step on a transaction within the contract leaves the rest pending and delivers one response: the one
the transaction is answered with alone. -/
theorem step_answers {s : State} {t : Transaction} {rest : List Transaction} (h : s.pending = t :: rest)
    (ht : InContract t) : ∃ s' r, step s = .next s' ∧ s'.pending = rest ∧ s'.results = s.results ++ [r] ∧
      answerAlone t = some r := by
  obtain ⟨s₀, hs₀⟩ := step_next_of_inContract (s := { State.reset with pending := [t] }) rfl ht
  obtain ⟨i, -, out, r, rfl, -⟩ := step_delivers (t := t) (rest := []) rfl hs₀
  exact ⟨_, r, by rw [step_behind h, hs₀]; rfl, rfl, rfl, by rw [answerAlone, hs₀]; rfl⟩

/-- A run goes on from the next state. -/
theorem run_succ_of_step {M : Host.Core} {s s' : M.State} (n : Nat) (h : M.step s = .next s') :
    M.run (n + 1) s = M.run n s' := by
  rw [Host.Core.run, h]

/-- Running as many steps as there are safe transactions pending answers each as alone (R21, R48). -/
theorem run_answers {s : State} (hs : Safe s) :
    ∃ s', core.run s.pending.length s = .next s' ∧ s'.pending = [] ∧
      s'.results.map some = s.results.map some ++ s.pending.map answerAlone := by
  generalize hp : s.pending = ts
  induction ts generalizing s with
  | nil => exact ⟨s, rfl, hp, by simp⟩
  | cons t rest ih =>
    have hts : ∀ x ∈ t :: rest, InContract x := hp ▸ hs
    obtain ⟨s₁, r, hstep, hrest, hres, hr⟩ := step_answers hp (hts t List.mem_cons_self)
    obtain ⟨s', hrun, hdone, hall⟩ :=
      ih (s := s₁) (fun x hx => hts x (List.mem_cons_of_mem t (hrest ▸ hx))) hrest
    refine ⟨s', (run_succ_of_step (M := core) _ hstep).trans hrun, hdone, ?_⟩
    rw [hall, hres]; simp [hr]

end Sys2Proof.Machine

namespace Sys2Proof.Proofs

open Machine

/-- Settles O3, by induction on the pending transactions. -/
theorem transactionsAreIndependent : Obligations.TransactionsAreIndependent :=
  fun _ => run_answers

/-- Settles O4: the two states begin their oldest transaction in the same state. -/
theorem nothingIsLeftFromEarlierTransactions :
    Obligations.NothingIsLeftFromEarlierTransactions := by
  intro s s' hne hp hr
  obtain ⟨t, rest, h⟩ := List.exists_cons_of_ne_nil hne
  have hbegin : s.begin t rest = s'.begin t rest := by simp only [State.begin, hr]
  rw [step_behind h, step_behind (s := s') (hp ▸ h), hbegin]

end Sys2Proof.Proofs
end

section
/-!
PROOFS. The family of memory: reads in a row, reads of packed bits, and how long a built message is
(spec/20_memory.md).
-/

namespace Sys2Proof.Machine

/-! ## Reads in a row -/

/-- One more bit is read behind the others, in the lowest place (R15). -/
theorem memRead_succ (buf : List Byte) (p n : Nat) :
    memRead buf p (n + 1) = 2 * memRead buf p n + (streamBit buf (p + n)).toNat :=
  weightedSum_succ (fun k => streamBit buf (p + k)) n

/-- A read of `a + b` bits is a read of `a` bits in front of a read of `b` bits (R41). -/
theorem memRead_add (buf : List Byte) (p a b : Nat) :
    memRead buf p (a + b) = memRead buf p a * 2 ^ b + memRead buf (p + a) b := by
  induction b with
  | zero => simp [memRead]
  | succ b ih =>
    calc memRead buf p (a + b + 1)
        = 2 * memRead buf p (a + b) + (streamBit buf (p + (a + b))).toNat := memRead_succ _ _ _
      _ = memRead buf p a * 2 ^ (b + 1)
            + (2 * memRead buf (p + a) b + (streamBit buf (p + a + b)).toNat) := by
          rw [ih, Nat.add_assoc p a b]; ring
      _ = memRead buf p a * 2 ^ (b + 1) + memRead buf (p + a) (b + 1) := by rw [memRead_succ]

/-- TAKE succeeds exactly where its bits remain, with their value (R90). -/
theorem take_ok_iff {buf : List Byte} {c c' : Cursor} {n v : Nat} (hn : 1 ≤ n) :
    take buf c n = .ok (c', v) ↔ Advances buf c c' n ∧ v = memRead buf c.pos n := by
  constructor
  · intro h
    refine ⟨take_advances hn h, ?_⟩
    rw [take_of_le (take_advances hn h).2] at h
    cases h; rfl
  · rintro ⟨⟨rfl, hle⟩, rfl⟩
    exact take_of_le hle

/-- TAKE is `Underrun` exactly where fewer bits remain (R90). -/
theorem take_underrun_iff {buf : List Byte} {c : Cursor} {n : Nat} (hn : 1 ≤ n) :
    take buf c n = .error .Underrun ↔ 8 * buf.length < c.pos + n := by
  refine ⟨fun h => ?_, take_of_lt hn⟩
  by_contra hle
  rw [take_of_le (Nat.le_of_not_lt hle)] at h
  cases h

/-! ## The messages MSG_BUILD returns -/

theorem one_le_encLen (n : Name) : 1 ≤ encLen n :=
  Nat.le_add_right 1 _

/-- MSG_BUILD succeeds exactly on a name within both limits, and returns its one question (R151). -/
theorem msgBuild_ok_iff {id : U16} {str : List Byte} {t : RecordType} {k : RecordClass}
    {m : Message} : msgBuild id str t k = .ok m ↔
      encLen (nameSplit str) ≤ 255 ∧ labelsWellFormed (nameSplit str) = true ∧
        m = ⟨hdrNew id, [⟨nameSplit str, t, k⟩]⟩ := by
  rw [msgBuild_eq, ← checkLabels_ok]
  by_cases hlen : 255 < encLen (nameSplit str)
  · rw [if_pos hlen]
    exact ⟨nofun, fun h => absurd h.1 (Nat.not_le.mpr hlen)⟩
  · rw [if_neg hlen]
    cases checkLabels (nameSplit str) with
    | error e => exact ⟨nofun, fun ⟨_, h, _⟩ => nomatch h⟩
    | ok u =>
      exact ⟨fun h => ⟨Nat.le_of_not_lt hlen, rfl, (Except.ok.inj h).symm⟩, fun ⟨_, _, h⟩ => by rw [h]⟩

/-! ## Encoding questions and messages with good labels -/

/-- A question with good labels encodes (R132, R141). -/
theorem qEncode_of_labels {q : Question} (h : labelsWellFormed q.name = true) :
    ∃ bits, qEncode q = .ok bits := by
  rw [qEncode_eq, nameEncode, emitLabels_ok [] q.name h]
  exact ⟨_, rfl⟩

/-- Questions with good labels encode, each to its name's bytes and four more (R141, R153). -/
theorem emitQuestions_of_labels (out : List Bool) {qs : List Question}
    (h : ∀ q ∈ qs, labelsWellFormed q.name = true) :
    ∃ bits, emitQuestions out qs = .ok bits ∧
      bits.length = out.length + 8 * (qs.map fun q => encLen q.name + 4).sum := by
  induction qs generalizing out with
  | nil => exact ⟨out, rfl, rfl⟩
  | cons q qs ih =>
    obtain ⟨hq, hqs⟩ := List.forall_mem_cons.mp h
    obtain ⟨qbits, hqbits⟩ := qEncode_of_labels hq
    obtain ⟨bits, hbits, hlen⟩ := ih (out ++ qbits) hqs
    refine ⟨bits, by rw [emitQuestions_cons, hqbits]; exact hbits, ?_⟩
    rw [hlen, List.length_append, qEncode_length hqbits, List.map_cons, List.sum_cons]
    omega

/-- A message whose questions have good labels encodes to the header's 12 bytes and its questions'
(R153). -/
theorem msgEncode_of_labels {m : Message} (h : ∀ q ∈ m.qs, labelsWellFormed q.name = true) :
    ∃ b, msgEncode m = .ok b ∧ b.length = 12 + (m.qs.map fun q => encLen q.name + 4).sum := by
  obtain ⟨bits, hbits, hlen⟩ := emitQuestions_of_labels (hdrEncode m.hdr) h
  refine ⟨pack bits, bind_eq_ok.mpr ⟨bits, hbits, rfl⟩, ?_⟩
  rw [pack_length, hlen, hdrEncode_length]
  omega

end Sys2Proof.Machine

namespace Sys2Proof.Proofs

open Machine

/-- Settles O9: both reads succeed exactly where the joined read does, by the positions they reach. -/
theorem readsInARowAreOneRead : Obligations.ReadsInARowAreOneRead := by
  refine ⟨fun buf p a b _ => memRead_add buf p a b, fun buf c0 a b _ ha _ hb _ => ⟨?_, ?_⟩⟩
  · intro c1 v1 c2 v2 h1 h2
    obtain ⟨hfirst, rfl⟩ := (take_ok_iff ha).mp h1
    obtain ⟨hsecond, rfl⟩ := (take_ok_iff hb).mp h2
    refine ⟨hfirst.pos_eq, by rw [hsecond.pos_eq, hfirst.pos_eq], fun _ => ?_⟩
    rw [take_ok_iff (by omega), hfirst.pos_eq, memRead_add]
    exact ⟨hfirst.trans hsecond, rfl⟩
  · intro _ hjoined
    rw [take_underrun_iff (by omega)] at hjoined
    obtain ⟨-, hfirst⟩ | ⟨-, hfirst⟩ := take_cases buf c0 a ha
    · refine .inr ⟨_, _, hfirst, (take_underrun_iff hb).mpr ?_⟩
      rw [Cursor.pos_ofPos]; omega
    · exact .inl hfirst

/-- Settles O10: the stream bits of packed bytes are the bits packed, and `false` behind them. -/
theorem readAfterPack : Obligations.ReadAfterPack := by
  refine fun bits => ⟨fun p n _ _ _ => ⟨memRead_lt _ p n, fun k hk => ?_⟩, fun p hp _ => ?_⟩
  · rw [testBit_memRead _ p n k hk, streamBit_pack]
  · rw [streamBit_pack, List.getD_eq_default bits false hp]

/-- Settles O40: the message encodes to 16 bytes and its name's, and MSG_BUILD has checked that the name
has at most 255. -/
theorem builtMessagesAreShort : Obligations.BuiltMessagesAreShort := by
  intro id str t k m hm
  obtain ⟨hcount, hlabels⟩ := (messageWellFormed_iff m).mp (msgBuild_wellFormed hm)
  obtain ⟨b, hb, hlen⟩ := msgEncode_of_labels hlabels
  obtain ⟨hmax, -, rfl⟩ := msgBuild_ok_iff.mp hm
  have hsize : b.length = 12 + (encLen (nameSplit str) + 4) := hlen
  have hmin := one_le_encLen (nameSplit str)
  exact ⟨hcount, b, hb, by omega, by omega⟩

end Sys2Proof.Proofs
end

section
/-!
PROOFS. Where the bits of a value stand in a buffer, the decoder of its format reads the value back: for codes,
headers, labels, names, questions and messages, at any bit offset.
-/

namespace Sys2Proof.Machine

/-! ## The bits at a position -/

/-- The buffer holds these bits from stream position `p` on. -/
def HoldsAt (buf : List Byte) (p : Nat) (bits : List Bool) : Prop :=
  p + bits.length ≤ 8 * buf.length ∧
    ∀ k, k < bits.length → bits[k]? = some (streamBit buf (p + k))

theorem holdsAt_append {buf : List Byte} {p : Nat} {a b : List Bool} :
    HoldsAt buf p (a ++ b) ↔ HoldsAt buf p a ∧ HoldsAt buf (p + a.length) b := by
  simp only [HoldsAt, List.length_append]
  constructor
  · rintro ⟨hle, hbits⟩
    refine ⟨⟨by omega, fun k hk => ?_⟩, ⟨by omega, fun k hk => ?_⟩⟩
    · rw [← hbits k (by omega), List.getElem?_append_left hk]
    · rw [Nat.add_assoc, ← hbits (a.length + k) (by omega),
        List.getElem?_append_right (Nat.le_add_right _ _), Nat.add_sub_cancel_left]
  · rintro ⟨⟨-, ha⟩, hle, hb⟩
    refine ⟨by omega, fun k hk => ?_⟩
    by_cases hka : k < a.length
    · rw [List.getElem?_append_left hka, ha k hka]
    · obtain ⟨j, rfl⟩ := Nat.exists_eq_add_of_le (Nat.le_of_not_lt hka)
      rw [List.getElem?_append_right (Nat.le_add_right _ _), Nat.add_sub_cancel_left,
        hb j (by omega), Nat.add_assoc]

/-- Packed bits stand at the origin (R154). -/
theorem holdsAt_pack (bits : List Bool) : HoldsAt (pack bits) 0 bits := by
  refine ⟨by rw [pack_length]; omega, fun k hk => ?_⟩
  rw [Nat.zero_add, streamBit_pack, List.getD_eq_getElem?_getD, List.getElem?_eq_getElem hk,
    Option.getD_some]

theorem flatMap_bitsN_length (bytes : List Byte) : (bytes.flatMap bitsN).length = 8 * bytes.length := by
  simp [List.length_flatMap, Nat.mul_comm]

/-- The bits of bytes, byte by byte, are their stream bits (R13). -/
theorem flatMap_bitsN_getElem? (bytes : List Byte) (k : Nat) (h : k < 8 * bytes.length) :
    (bytes.flatMap bitsN)[k]? = some (streamBit bytes k) := by
  induction bytes generalizing k with
  | nil => exact absurd h (Nat.not_lt_zero k)
  | cons b bytes ih =>
    rw [List.flatMap_cons]
    by_cases h8 : k < 8
    · rw [List.getElem?_append_left (by rwa [bitsN_length])]
      simp [bitsN, streamBit, h8, Nat.div_eq_of_lt h8, Nat.mod_eq_of_lt h8]
    · obtain ⟨j, rfl⟩ := Nat.exists_eq_add_of_le (Nat.le_of_not_lt h8)
      have hj : j < 8 * bytes.length := by rw [List.length_cons] at h; omega
      rw [List.getElem?_append_right (by simp), bitsN_length, Nat.add_sub_cancel_left, ih j hj]
      simp [streamBit, Nat.add_comm 8 j]

/-- The bits of bytes stand at the origin of these bytes. -/
theorem holdsAt_bytes (bytes : List Byte) : HoldsAt bytes 0 (bytes.flatMap bitsN) := by
  rw [HoldsAt, flatMap_bitsN_length]
  exact ⟨by omega, fun k hk => by rw [Nat.zero_add, flatMap_bitsN_getElem? bytes k hk]⟩

/-! ## The reads -/

section
variable {buf : List Byte} {p : Nat} {c : Cursor}

theorem le_of_holdsAt_bitsN {n : Nat} {v : BitVec n} (h : HoldsAt buf p (bitsN v)) :
    p + n ≤ 8 * buf.length := by
  simpa using h.1

/-- A read of a value's bits is the value (R15, R53). -/
theorem memRead_of_holdsAt {n : Nat} {v : BitVec n} (h : HoldsAt buf p (bitsN v)) :
    memRead buf p n = v.toNat := by
  refine memRead_unique v.isLt fun k hk => ?_
  have hbit := h.2 k (by rwa [bitsN_length])
  rw [bitsN_getElem? v k hk] at hbit
  exact Option.some.inj hbit

theorem ofNat_memRead_of_holdsAt {n : Nat} {v : BitVec n} (h : HoldsAt buf p (bitsN v)) :
    BitVec.ofNat n (memRead buf p n) = v := by
  rw [memRead_of_holdsAt h, BitVec.ofNat_toNat, BitVec.setWidth_eq]

theorem streamBit_of_holdsAt {v : BitVec 1} (h : HoldsAt buf p (bitsN v)) :
    streamBit buf p = v.getMsbD 0 :=
  (Option.some.inj (h.2 0 Nat.zero_lt_one)).symm

theorem takeByte_of_holdsAt {b : Byte} (h : HoldsAt buf c.pos (bitsN b)) :
    takeByte buf c = .ok (Cursor.ofPos (c.pos + 8), b) := by
  rw [takeByte_of_le (le_of_holdsAt_bitsN h), ofNat_memRead_of_holdsAt h]

theorem takeNibble_of_holdsAt {v : U4} (h : HoldsAt buf c.pos (bitsN v)) :
    takeNibble buf c = .ok (Cursor.ofPos (c.pos + 4), v) := by
  rw [takeNibble_of_le (le_of_holdsAt_bitsN h), ofNat_memRead_of_holdsAt h]

theorem takeU16_of_holdsAt {v : U16} (h : HoldsAt buf c.pos (bitsN v)) :
    takeU16 buf c = .ok (Cursor.ofPos (c.pos + 16), v) := by
  rw [takeU16_of_le (le_of_holdsAt_bitsN h), ofNat_memRead_of_holdsAt h]

theorem bytesFrom_of_holdsAt {l : Label} (h : HoldsAt buf p (l.flatMap bitsN)) :
    bytesFrom buf p l.length = l := by
  induction l generalizing p with
  | nil => rfl
  | cons b l ih =>
    rw [List.flatMap_cons, holdsAt_append, bitsN_length] at h
    obtain ⟨hb, hl⟩ := h
    rw [List.length_cons, bytesFrom_succ, ofNat_memRead_of_holdsAt hb, ih hl]

/-- Where a label's bytes stand, they are read as the label, unchanged (R134, R136). -/
theorem readLabel_of_holdsAt {l : Label} (h : HoldsAt buf p (l.flatMap bitsN)) :
    readLabel buf l.length (Cursor.ofPos p) = .ok (l, Cursor.ofPos (p + 8 * l.length)) := by
  have hle := h.1
  rw [flatMap_bitsN_length] at hle
  rw [readLabel_of_le buf _ p hle, bytesFrom_of_holdsAt h]

end

/-! ## The codes -/

theorem rtypeDecode_encode (v : RecordType) : rtypeDecode (rtypeEncode v) = .ok v := by
  cases v <;> rfl

theorem rclassDecode_encode (v : RecordClass) : rclassDecode (rclassEncode v) = .ok v := by
  cases v <;> rfl

theorem opcodeDecode_encode (v : Opcode) : opcodeDecode (opcodeEncode v) = .ok v := by
  cases v <;> rfl

theorem rcodeDecode_encode (v : ResponseCode) : rcodeDecode (rcodeEncode v) = .ok v := by
  cases v <;> rfl

theorem getMsbD_boolBit (b : Bool) : (boolBit b).getMsbD 0 = b := by
  cases b <;> rfl

theorem qrOfBit_qrBit (qr : QR) : qrOfBit ((qrBit qr).getMsbD 0) = qr := by
  cases qr <;> rfl

/-! ## The bits of names, questions and messages -/

/-- The bits of one label: its length byte and its bytes (R63). -/
def labelBits (l : Label) : List Bool :=
  bitsN (BitVec.ofNat 8 l.length) ++ l.flatMap bitsN

/-- The bits of a name: its labels, then the root label (R64). -/
def nameBits (n : Name) : List Bool :=
  n.flatMap labelBits ++ bitsN (0 : Byte)

/-- The bits of a question (R65). -/
def questionBits (q : Question) : List Bool :=
  nameBits q.name ++ rtypeBits q.qtype ++ rclassBits q.qclass

theorem nameBits_cons (l : Label) (n : Name) : nameBits (l :: n) = labelBits l ++ nameBits n := by
  simp [nameBits]

theorem labelBits_length (l : Label) : (labelBits l).length = 8 * (1 + l.length) := by
  rw [labelBits, List.length_append, bitsN_length, flatMap_bitsN_length]
  omega

theorem nameBits_length (n : Name) : (nameBits n).length = 8 * encLen n := by
  induction n with
  | nil => rfl
  | cons l n ih => rw [nameBits_cons, List.length_append, labelBits_length, ih, encLen_cons]; omega

theorem questionBits_length (q : Question) : (questionBits q).length = 8 * (encLen q.name + 4) := by
  rw [questionBits, List.length_append, List.length_append, nameBits_length, rtypeBits, rclassBits,
    bitsN_length, bitsN_length]
  omega

/-- NAME_ENCODE of good labels gives the name's bits (R132). -/
theorem nameEncode_eq_nameBits {n : Name} (h : labelsWellFormed n = true) :
    nameEncode n = .ok (nameBits n) :=
  emitLabels_ok [] n h

/-- Q_ENCODE of good labels gives the question's bits (R141). -/
theorem qEncode_eq_questionBits {q : Question} (h : labelsWellFormed q.name = true) :
    qEncode q = .ok (questionBits q) := by
  rw [qEncode_eq, nameEncode_eq_nameBits h]; rfl

theorem emitQuestions_eq_questionBits (out : List Bool) {qs : List Question}
    (h : ∀ q ∈ qs, labelsWellFormed q.name = true) :
    emitQuestions out qs = .ok (out ++ qs.flatMap questionBits) := by
  induction qs generalizing out with
  | nil => rw [List.flatMap_nil, List.append_nil]; rfl
  | cons q qs ih =>
    obtain ⟨hq, hqs⟩ := List.forall_mem_cons.mp h
    rw [emitQuestions_cons, qEncode_eq_questionBits hq, List.flatMap_cons, ← List.append_assoc]
    exact ih _ hqs

/-- The bits of a message with good labels: the header's, then each question's (R153). -/
theorem msgBits_eq_questionBits {m : Message} (h : ∀ q ∈ m.qs, labelsWellFormed q.name = true) :
    msgBits m = .ok (hdrEncode m.hdr ++ m.qs.flatMap questionBits) :=
  emitQuestions_eq_questionBits _ h

/-! ## The decoders -/

section
variable {buf : List Byte} {p : Nat}

/-- Where the bits of a header stand, HDR_DECODE reads the header (R126 (a)). -/
theorem hdrDecode_of_holdsAt {c : Cursor} {h : Header} (hold : HoldsAt buf c.pos (hdrEncode h)) :
    hdrDecode buf c = .ok (h, Cursor.ofPos (c.pos + 96)) := by
  have hle : c.pos + 96 ≤ 8 * buf.length := by simpa using hold.1
  simp only [hdrEncode, emit, List.nil_append, holdsAt_append, and_assoc, List.length_append,
    bitsN_length, Nat.reduceAdd] at hold
  obtain ⟨hid, hqr, hop, haa, htc, hrd, hra, hz, hrc, hqd, han, hns, har⟩ := hold
  have hzero : memRead buf (c.pos + 25) 3 = 0 := memRead_of_holdsAt hz
  have hfields : headerFrom buf c.pos h.opcode h.rcode = h := by
    simp only [headerFrom, ofNat_memRead_of_holdsAt hid, streamBit_of_holdsAt hqr, qrOfBit_qrBit,
      streamBit_of_holdsAt haa, streamBit_of_holdsAt htc, streamBit_of_holdsAt hrd,
      streamBit_of_holdsAt hra, getMsbD_boolBit, ofNat_memRead_of_holdsAt hqd,
      ofNat_memRead_of_holdsAt han, ofNat_memRead_of_holdsAt hns, ofNat_memRead_of_holdsAt har]
  rw [hdrDecode_of_le hle, if_neg (not_not.mpr hzero), ofNat_memRead_of_holdsAt hop,
    opcodeDecode_encode, ofNat_memRead_of_holdsAt hrc, rcodeDecode_encode]
  simp only [hfields]

/-- A good label's length fits its length byte (R63). -/
theorem toNat_ofNat_label_length {l : Label} (h : labelWellFormed l = true) :
    (BitVec.ofNat 8 l.length).toNat = l.length := by
  rw [labelWellFormed_iff] at h
  rw [BitVec.toNat_ofNat, Nat.mod_eq_of_lt (by omega)]

/-- Where the bits of a name with good labels stand, NAME_DECODE reads the name (R135 (a)). -/
theorem nameDecode_of_holdsAt {n : Name} (hn : labelsWellFormed n = true)
    (hold : HoldsAt buf p (nameBits n)) :
    nameDecode buf (Cursor.ofPos p) = .ok (n, Cursor.ofPos (p + 8 * encLen n)) := by
  induction n generalizing p with
  | nil =>
    have hlen : memRead buf p 8 = 0 := memRead_of_holdsAt (v := (0 : Byte)) hold
    have hle : p + 8 ≤ 8 * buf.length := hold.1
    rw [nameDecode_eq, if_neg (by omega), if_pos hlen, encLen_nil]
  | cons l n ih =>
    obtain ⟨hl, hn⟩ := (labelsWellFormed_cons l n).mp hn
    rw [nameBits_cons, holdsAt_append, labelBits_length, labelBits, holdsAt_append,
      bitsN_length] at hold
    obtain ⟨⟨hbyte, hbytes⟩, hrest⟩ := hold
    have hlen : memRead buf p 8 = l.length :=
      (memRead_of_holdsAt hbyte).trans (toNat_ofNat_label_length hl)
    rw [labelWellFormed_iff] at hl
    rw [show p + 8 * (1 + l.length) = p + 8 + 8 * l.length by omega] at hrest
    have hle := hrest.1
    rw [nameDecode_eq, hlen, if_neg (by omega), if_neg (by omega), if_neg (by omega),
      if_neg (by omega), ih hn hrest, bytesFrom_of_holdsAt hbytes, encLen_cons]
    simp only [Except.ok.injEq, Prod.mk.injEq, true_and]
    congr 1; omega

/-- Where the bits of a question with good labels stand, Q_DECODE reads the question (R143 (a)). -/
theorem qDecode_of_holdsAt {q : Question} (hq : labelsWellFormed q.name = true)
    (hold : HoldsAt buf p (questionBits q)) :
    qDecode buf (Cursor.ofPos p) = .ok (q, Cursor.ofPos (p + 8 * (encLen q.name + 4))) := by
  simp only [questionBits, holdsAt_append, List.length_append, nameBits_length, rtypeBits,
    rclassBits, bitsN_length, ← Nat.add_assoc] at hold
  obtain ⟨⟨hname, htype⟩, hclass⟩ := hold
  have hle := le_of_holdsAt_bitsN hclass
  rw [qDecode_of_name (nameDecode_of_holdsAt hq hname), Cursor.pos_ofPos, if_neg (by omega),
    ofNat_memRead_of_holdsAt htype, rtypeDecode_encode]
  dsimp only
  rw [if_neg (by omega), ofNat_memRead_of_holdsAt hclass, rclassDecode_encode]
  rfl

/-- Where the bits of questions with good labels stand, as many are read as there are (R155). -/
theorem readQuestions_of_holdsAt {qs : List Question}
    (hqs : ∀ q ∈ qs, labelsWellFormed q.name = true)
    (hold : HoldsAt buf p (qs.flatMap questionBits)) :
    readQuestions buf qs.length (Cursor.ofPos p) = .ok qs := by
  induction qs generalizing p with
  | nil => rfl
  | cons q qs ih =>
    obtain ⟨hq, hqs⟩ := List.forall_mem_cons.mp hqs
    rw [List.flatMap_cons, holdsAt_append, questionBits_length] at hold
    obtain ⟨hfirst, hrest⟩ := hold
    rw [List.length_cons, readQuestions_succ, qDecode_of_holdsAt hq hfirst]
    simp only [ih hqs hrest]

/-- Where the bits of a well-formed message stand, MSG_DECODE reads the message (R156 (a)). -/
theorem msgDecode_of_holdsAt {m : Message} (hm : messageWellFormed m = true)
    (hold : HoldsAt buf 0 (hdrEncode m.hdr ++ m.qs.flatMap questionBits)) :
    msgDecode buf = .ok m := by
  obtain ⟨hcount, hlabels⟩ := (messageWellFormed_iff m).mp hm
  rw [holdsAt_append, hdrEncode_length] at hold
  obtain ⟨hhdr, hqs⟩ := hold
  rw [msgDecode_eq, hdrDecode_of_holdsAt (c := Cursor.origin) hhdr]
  simp only [Cursor.pos_origin, hcount, readQuestions_of_holdsAt hlabels hqs]

end

end Sys2Proof.Machine
end

section
/-!
PROOFS. The family of the encoding: each element of a wire format is what its bytes decode to, and what a step
and an element deliver (spec/30_encoding.md).
-/

namespace Sys2Proof

open Machine

/-! ## The decoder on encoded elements -/

theorem decode_wire {f : WireFormat} {bytes : List Byte} {i : Instr}
    (h : decodeElement f bytes = .ok i) : decode (.wire f bytes) = .ok i := by
  rw [decode, h]

theorem decode_recordType (v : RecordType) :
    decode (.wire .rtype16 (pack (rtypeBits v))) = .ok (recordTypeRow v) :=
  decode_wire <| bind_eq_ok.mpr ⟨_, takeU16_of_holdsAt (holdsAt_pack (rtypeBits v)),
    bind_eq_ok.mpr ⟨v, rtypeDecode_encode v, rfl⟩⟩

theorem decode_recordClass (v : RecordClass) :
    decode (.wire .rclass16 (pack (rclassBits v))) = .ok (recordClassRow v) :=
  decode_wire <| bind_eq_ok.mpr ⟨_, takeU16_of_holdsAt (holdsAt_pack (rclassBits v)),
    bind_eq_ok.mpr ⟨v, rclassDecode_encode v, rfl⟩⟩

theorem decode_opcode (v : Opcode) :
    decode (.wire .opcode4 (pack (opcodeBits v))) = .ok (opcodeRow v) :=
  decode_wire <| bind_eq_ok.mpr ⟨_, takeNibble_of_holdsAt (holdsAt_pack (opcodeBits v)),
    bind_eq_ok.mpr ⟨v, opcodeDecode_encode v, rfl⟩⟩

theorem decode_responseCode (v : ResponseCode) :
    decode (.wire .rcode4 (pack (rcodeBits v))) = .ok (responseCodeRow v) :=
  decode_wire <| bind_eq_ok.mpr ⟨_, takeNibble_of_holdsAt (holdsAt_pack (rcodeBits v)),
    bind_eq_ok.mpr ⟨v, rcodeDecode_encode v, rfl⟩⟩

theorem decode_header (h : Header) : decode (.wire .hdr96 (pack (hdrEncode h))) = .ok (.header h) :=
  decode_wire <| bind_eq_ok.mpr
    ⟨_, hdrDecode_of_holdsAt (c := Cursor.origin) (holdsAt_pack (hdrEncode h)), rfl⟩

theorem decode_label {l : Label} (hl : labelWellFormed l = true) :
    decode (.wire .label (BitVec.ofNat 8 l.length :: l)) = .ok (.label l) := by
  have hold : HoldsAt (BitVec.ofNat 8 l.length :: l) 0 (labelBits l) := holdsAt_bytes _
  rw [labelBits, holdsAt_append, bitsN_length] at hold
  obtain ⟨hbyte, hbytes⟩ := hold
  have hlen := toNat_ofNat_label_length hl
  rw [labelWellFormed_iff] at hl
  refine decode_wire <| bind_eq_ok.mpr ⟨_, takeByte_of_holdsAt (c := Cursor.origin) hbyte, ?_⟩
  dsimp only
  rw [hlen, if_neg (by omega), if_neg (by omega)]
  exact bind_eq_ok.mpr ⟨_, readLabel_of_holdsAt hbytes, rfl⟩

theorem decode_name {n : Name} (hn : labelsWellFormed n = true) :
    decode (.wire .name (elementBytes (nameEncode n))) = .ok (.name n) := by
  rw [nameEncode_eq_nameBits hn]
  exact decode_wire <| bind_eq_ok.mpr ⟨_, nameDecode_of_holdsAt hn (holdsAt_pack _), rfl⟩

theorem decode_question {q : Question} (hq : labelsWellFormed q.name = true) :
    decode (.wire .question (elementBytes (qEncode q))) = .ok (.question q) := by
  rw [qEncode_eq_questionBits hq]
  exact decode_wire <| bind_eq_ok.mpr ⟨_, qDecode_of_holdsAt hq (holdsAt_pack _), rfl⟩

theorem decode_message {m : Message} (hm : messageWellFormed m = true) :
    decode (.wire .message (elementBytes (msgBits m))) = .ok (.message m) := by
  rw [msgBits_eq_questionBits ((messageWellFormed_iff m).mp hm).2]
  exact decode_wire <| bind_eq_ok.mpr ⟨_, msgDecode_of_holdsAt hm (holdsAt_pack _), rfl⟩

/-! ## The length byte -/

theorem decode_len8 (b : Byte) : decode (.wire .len8 [b]) = .ok (decodeLengthByte b) := by
  have hold := holdsAt_bytes [b]
  rw [List.flatMap_singleton] at hold
  exact decode_wire <| bind_eq_ok.mpr ⟨_, takeByte_of_holdsAt (c := Cursor.origin) hold, rfl⟩

theorem toNat_lengthByte (top : BitVec 2) (x : U6) :
    (lengthByte top x).toNat = 64 * top.toNat + x.toNat := by
  rw [lengthByte, BitVec.toNat_append, ← Nat.shiftLeft_add_eq_or_of_lt x.isLt,
    Nat.shiftLeft_eq, Nat.mul_comm]

/-- Every byte is its top two bits and its six low bits. -/
theorem eq_lengthByte (b : Byte) :
    b = lengthByte (BitVec.ofNat 2 (b.toNat / 64)) (BitVec.ofNat 6 b.toNat) := by
  have hb : b.toNat < 256 := b.isLt
  apply BitVec.eq_of_toNat_eq
  rw [toNat_lengthByte, BitVec.toNat_ofNat, BitVec.toNat_ofNat]
  omega

/-- A length byte is classified by its top two bits, and its class carries the six low bits (R68). -/
theorem decodeLengthByte_lengthByte (top : BitVec 2) (x : U6) :
    decodeLengthByte (lengthByte top x) =
      if top = 0 then if x = 0 then .lengthByteRoot else .lengthByteLabel x
      else if top = 1 then .lengthByteReserved01 x
      else if top = 2 then .lengthByteReserved10 x
      else .lengthByteReserved11 x := by
  have hlow : (lengthByte top x).extractLsb' 0 6 = x := BitVec.extractLsb'_append_eq_right
  have htop : (lengthByte top x).extractLsb' 6 2 = top := BitVec.extractLsb'_append_eq_left
  have hall : ∀ t : BitVec 2, t = 0 ∨ t = 1 ∨ t = 2 ∨ t = 3 := by decide
  rw [decodeLengthByte, hlow, htop]
  obtain rfl | rfl | rfl | rfl := hall top <;> rfl

theorem ofNat_ne_zero {w n : Nat} (h0 : 1 ≤ n) (hn : n < 2 ^ w) : BitVec.ofNat w n ≠ 0 := fun h => by
  have hmod : n % 2 ^ w = 0 := by simpa using congrArg BitVec.toNat h
  rw [Nat.mod_eq_of_lt hn] at hmod
  omega

/-- A label length byte carries its own value (R68). -/
theorem decodeLengthByte_label {b : Byte} (h1 : 1 ≤ b.toNat) (h63 : b.toNat ≤ 63) :
    decodeLengthByte b = .lengthByteLabel (BitVec.ofNat 6 b.toNat) := by
  have hb := eq_lengthByte b
  rw [Nat.div_eq_of_lt (by omega)] at hb
  have hx : BitVec.ofNat 6 b.toNat ≠ 0 := ofNat_ne_zero h1 (by omega)
  exact (congrArg decodeLengthByte hb).trans ((decodeLengthByte_lengthByte 0 _).trans (if_neg hx))

/-- A reserved length byte raises (R68, R75). -/
theorem exec_decodeLengthByte_reserved {b : Byte} (h : 64 ≤ b.toNat) (s : State) :
    exec (decodeLengthByte b) s = .next (s.raise .CompressionUnsupported) := by
  have hb : b.toNat < 256 := b.isLt
  have htop : BitVec.ofNat 2 (b.toNat / 64) ≠ 0 := ofNat_ne_zero (by omega) (by omega)
  rw [eq_lengthByte b, decodeLengthByte_lengthByte, if_neg htop]
  split_ifs <;> rfl

/-! ## The round trip -/

/-- The decoder inverts the encoder, format by format (R60). -/
theorem decode_encode {i : Instr} (hi : i.WellFormed = true) : decode (encode i) = .ok i := by
  have hlen8 (top : BitVec 2) (x : U6) := (decode_len8 (lengthByte top x)).trans
    (congrArg Except.ok (decodeLengthByte_lengthByte top x))
  cases i
  case header h => exact decode_header h
  case label l => exact decode_label hi
  case name n => exact decode_name hi
  case question q => exact decode_question hi
  case message m => exact decode_message hi
  case lengthByteRoot => exact hlen8 0 0
  case lengthByteLabel x =>
    exact (hlen8 0 x).trans (congrArg Except.ok (if_neg (of_decide_eq_true hi)))
  case lengthByteReserved01 x => exact hlen8 1 x
  case lengthByteReserved10 x => exact hlen8 2 x
  case lengthByteReserved11 x => exact hlen8 3 x
  case recordTypeA | recordTypeNS | recordTypeMD | recordTypeMF | recordTypeCNAME | recordTypeSOA
      | recordTypeMB | recordTypeMG | recordTypeMR | recordTypeNULL | recordTypeWKS | recordTypePTR
      | recordTypeHINFO | recordTypeMINFO | recordTypeMX | recordTypeTXT | recordTypeAAAA =>
    exact decode_recordType _
  case recordClassIN | recordClassCS | recordClassCH | recordClassHS => exact decode_recordClass _
  case opcodeQuery | opcodeInverseQuery | opcodeStatus => exact decode_opcode _
  case responseCodeNoError | responseCodeFormatError | responseCodeServerFailure
      | responseCodeNameError | responseCodeNotImplemented | responseCodeRefused =>
    exact decode_responseCode _
  -- The 27 operations: both sides are the OPSEL table (R80).
  all_goals rfl

end Sys2Proof

namespace Sys2Proof.Machine

open Spec

/-! ## The fields of a read -/

/-- The claims' own stream bit is the model's (R13). -/
theorem bitAt_eq_streamBit (buf : List Byte) (k : Nat) : bitAt buf k = streamBit buf k := by
  simp [bitAt, streamBit, BitVec.getMsbD, Nat.mod_lt k (by decide : 8 > 0)]

/-- A read is the field at its place (R15). -/
theorem fieldIs_memRead (buf : List Byte) (p n : Nat) : FieldIs buf p n (memRead buf p n) :=
  ⟨memRead_lt buf p n, fun k hk => by rw [testBit_memRead buf p n k hk, bitAt_eq_streamBit]⟩

theorem bytesFrom_getElem? (buf : List Byte) (p : Nat) {k j : Nat} (h : j < k) :
    (bytesFrom buf p k)[j]? = some (BitVec.ofNat 8 (memRead buf (p + 8 * j) 8)) := by
  simp [bytesFrom, h]

/-- A label length byte on a well-formed cursor reads its label behind the labels so far (R68). -/
theorem exec_lengthByteLabel {s : State} (hc : s.args.cur.WellFormed s.args.buf) (len : U6) :
    exec (.lengthByteLabel len) s =
      if 8 * s.args.buf.length < s.args.cur.pos + 8 * len.toNat then .next (s.raise .Underrun)
      else .next (s.deliver (.ok (.labelsAt
        (s.args.name ++ [bytesFrom s.args.buf s.args.cur.pos len.toNat])
        (Cursor.ofPos (s.args.cur.pos + 8 * len.toNat))))) := by
  rw [exec, execLengthByteLabel, withCursor_of_wellFormed s _ hc, ← Cursor.ofPos_pos _ hc.1,
    Cursor.pos_ofPos]
  split_ifs with h
  · rw [readLabel_of_lt _ _ _ hc.2 h]; rfl
  · rw [readLabel_of_le _ _ _ (Nat.le_of_not_lt h)]; rfl

end Sys2Proof.Machine

namespace Sys2Proof.Proofs

open Machine Spec

/-- Settles O46, by the round trip of each format. -/
theorem encodeThenDecode : Obligations.EncodeThenDecode :=
  fun _ => decode_encode

/-- Settles O31: a byte is its top two bits, which are its class, and six low bits. -/
theorem lengthBytesByTheirClass : Obligations.LengthBytesByTheirClass := by
  refine ⟨fun b => ?_, fun s hc => withCursor_of_wellFormed s _ hc,
    fun s len hc _ => ⟨fun hle => ?_, fun hlt => ?_⟩, fun _ _ => ⟨rfl, rfl, rfl⟩⟩
  · rw [decode_len8]
    refine ⟨fun h0 => ?_, fun h1 h63 => ?_, fun h64 => ⟨_, rfl, exec_decodeLengthByte_reserved h64⟩⟩
    · obtain rfl : b = 0 := BitVec.eq_of_toNat_eq h0
      rfl
    · rw [decodeLengthByte_label h1 h63]
  · refine ⟨bytesFrom s.args.buf s.args.cur.pos len.toNat, bytesFrom_length _ _ _, fun j hj => ?_, ?_⟩
    · rw [bytesFrom_getElem? _ _ hj, Option.getD_some, toNat_ofNat_memRead]
      exact fieldIs_memRead _ _ _
    · exact (exec_lengthByteLabel hc len).trans (if_neg (Nat.not_lt.mpr hle))
  · exact (exec_lengthByteLabel hc len).trans (if_pos hlt)

/-- Settles O47, by what the decoder of each format is known to have read. -/
theorem decodeYieldsWellFormed : Obligations.DecodeYieldsWellFormed :=
  fun _ _ => decode_wellFormed

/-- Settles O6: the state in which a step begins is the transaction's operands with an empty `OUT`. -/
theorem stepRunsTheDecodedInstruction : Obligations.StepRunsTheDecodedInstruction := by
  refine ⟨fun _ => step_idle, fun s t rest hp => ⟨fun i hi => ?_, fun e he => ?_⟩⟩
  · simp only [step, hp, hi]; rfl
  · simp only [step, hp, he]; rfl

/-- Settles O44, over the 27 codes of the table and the 32 values of OPSEL. -/
theorem opselSelectsTheOperation : Obligations.OpselSelectsTheOperation :=
  ⟨by decide, by decide⟩

/-- Settles O45, by running the decoder on each word. -/
theorem writtenWordsDecode : Obligations.WrittenWordsDecode := by
  unfold Obligations.WrittenWordsDecode
  decide

/-- Settles O48: each of these meanings is one delivery. -/
theorem elementsDeliverTheirRecords : Obligations.ElementsDeliverTheirRecords :=
  fun _ _ _ _ _ _ => ⟨rfl, rfl, rfl, rfl, rfl⟩

/-- Settles O49: the meaning of each row of the table is one delivery. -/
theorem codesDeliverTheirVariants : Obligations.CodesDeliverTheirVariants := by
  intro s p hp
  fin_cases hp <;> rfl

end Sys2Proof.Proofs
end

section
/-!
PROOFS. The family of the bit cursor: what TAKE and the three reads derived from it answer on a
well-formed cursor (spec/40_bitcursor.md).
-/

namespace Sys2Proof.Machine

open Spec

/-! ## The value of a read -/

/-- A read of at most 16 bits is not cut by the 16-bit field of its result. -/
theorem toNat_ofNat_memRead_of_le (buf : List Byte) (p : Nat) {n : Nat} (hn : n ≤ 16) :
    (BitVec.ofNat 16 (memRead buf p n)).toNat = memRead buf p n := by
  have hlt : memRead buf p n < 2 ^ 16 :=
    (memRead_lt buf p n).trans_le (Nat.pow_le_pow_right (by decide) hn)
  rw [BitVec.toNat_ofNat, Nat.mod_eq_of_lt hlt]

/-- A read of 8 bits on a byte boundary is the byte there (R13, R41). -/
theorem memRead_byte (buf : List Byte) (j : Nat) :
    memRead buf (8 * j) 8 = (buf[j]?.getD 0).toNat := by
  refine memRead_unique (BitVec.isLt _) fun k hk => ?_
  have hdiv : (8 * j + k) / 8 = j := by omega
  have hmod : (8 * j + k) % 8 = k := by omega
  simp [streamBit, hdiv, hmod, BitVec.getMsbD, hk, BitVec.getLsbD]

/-- A read of 16 bits on a byte boundary is big-endian: the first byte is the high one (R40, R93). -/
theorem memRead_word (buf : List Byte) (j : Nat) :
    memRead buf (8 * j) 16 = 256 * (buf[j]?.getD 0).toNat + (buf[j + 1]?.getD 0).toNat :=
  calc memRead buf (8 * j) (8 + 8)
      = memRead buf (8 * j) 8 * 2 ^ 8 + memRead buf (8 * (j + 1)) 8 := memRead_add buf (8 * j) 8 8
    _ = 256 * (buf[j]?.getD 0).toNat + (buf[j + 1]?.getD 0).toNat := by
        rw [memRead_byte, memRead_byte]; omega

/-! ## The reads as transactions -/

section
variable {s : State} {α : Type} {x : Except Err α} {f : α → Except Err Result}

/-- A transaction that reads on a well-formed cursor and has its bits delivers its result. -/
theorem withCursor_conclude_of_ok (hc : s.args.cur.WellFormed s.args.buf) {a : α} {v : Result}
    (hx : x = .ok a) (hf : f a = .ok v) :
    s.withCursor (s.conclude (x >>= f)) = .next (s.deliver (.ok v)) := by
  rw [withCursor_of_wellFormed s _ hc, bind_eq_ok.mpr ⟨a, hx, hf⟩, conclude_ok]

/-- A transaction that reads on a well-formed cursor and fails in the read raises its error. -/
theorem withCursor_conclude_of_error (hc : s.args.cur.WellFormed s.args.buf) {e : Err}
    (hx : x = .error e) : s.withCursor (s.conclude (x >>= f)) = .next (s.raise e) := by
  rw [withCursor_of_wellFormed s _ hc, hx]
  rfl

end

end Sys2Proof.Machine

namespace Sys2Proof.Proofs

open Machine Spec

/-- Settles O12: the value is the field read, which the 16-bit result holds. -/
theorem takeReadsTheNextBits : Obligations.TakeReadsTheNextBits := by
  intro s hc h1 h16
  have hwidth : exec .take s = s.withCursor _ := withWidth_of_inContract s _ h1 h16
  refine ⟨fun hle => ⟨BitVec.ofNat 16 (memRead s.args.buf s.args.cur.pos s.args.n), ?_, ?_⟩,
    fun hlt => hwidth.trans (withCursor_conclude_of_error hc (take_of_lt h1 hlt))⟩
  · rw [toNat_ofNat_memRead_of_le _ _ h16]
    exact fieldIs_memRead _ _ _
  · exact hwidth.trans (withCursor_conclude_of_ok hc (take_of_le hle) rfl)

/-- Settles O13: a read of one bit is the stream bit there. -/
theorem takeBitReadsOneBit : Obligations.TakeBitReadsOneBit := by
  refine fun s hc => ⟨fun hle => ?_,
    fun hlt => withCursor_conclude_of_error hc (takeBit_of_lt hlt)⟩
  rw [bitAt_eq_streamBit]
  exact withCursor_conclude_of_ok hc (takeBit_of_le hle) rfl

/-- Settles O14: the value is the field read, below `2^4`. -/
theorem takeNibbleReadsFourBits : Obligations.TakeNibbleReadsFourBits := by
  intro s hc
  have hvalue : ((BitVec.ofNat 4 (memRead s.args.buf s.args.cur.pos 4)).setWidth 16).toNat
      = memRead s.args.buf s.args.cur.pos 4 := by
    rw [BitVec.toNat_setWidth_of_le (by decide), toNat_ofNat_memRead]
  refine ⟨fun hle => ⟨(BitVec.ofNat 4 (memRead s.args.buf s.args.cur.pos 4)).setWidth 16, ?_, ?_,
    withCursor_conclude_of_ok hc (takeNibble_of_le hle) rfl⟩,
    fun hlt => withCursor_conclude_of_error hc (takeNibble_of_lt hlt)⟩
  · rw [hvalue]
    exact fieldIs_memRead _ _ _
  · rw [hvalue]
    exact Nat.le_of_lt_succ (memRead_lt _ _ 4)

/-- Settles O15: the value is the field read; on a byte boundary it is two bytes read in a row. -/
theorem takeU16ReadsABigEndianWord : Obligations.TakeU16ReadsABigEndianWord := by
  refine fun s hc => ⟨fun hle => ⟨BitVec.ofNat 16 (memRead s.args.buf s.args.cur.pos 16), ?_,
    fun hbit => ?_, withCursor_conclude_of_ok hc (takeU16_of_le hle) rfl⟩,
    fun hlt => withCursor_conclude_of_error hc (takeU16_of_lt hlt)⟩
  · rw [toNat_ofNat_memRead]
    exact fieldIs_memRead _ _ _
  · rw [toNat_ofNat_memRead, Cursor.pos, hbit]
    exact memRead_word _ _

end Sys2Proof.Proofs
end

section
/-!
PROOFS. The family of the enumerations: each is one table, and its decoder, its encoder and its bits are read
off that table (spec/41_enumerations.md R100).
-/

namespace Sys2Proof.Machine

open Spec

/-! ## The bits of a code -/

/-- The claims' own bits of a number are the model's (R15). -/
theorem numberBits_toNat {n : Nat} (v : BitVec n) : numberBits n v.toNat = bitsN v := by
  refine List.map_congr_left fun i hi => ?_
  have hlt : i < n := List.mem_range.mp hi
  simp [BitVec.getMsbD, BitVec.getLsbD, hlt]

/-- Packed alone, the bits of a value read back as its number (R113 (d)). -/
theorem memRead_pack_bitsN {n : Nat} (v : BitVec n) : memRead (pack (bitsN v)) 0 n = v.toNat :=
  memRead_of_holdsAt (holdsAt_pack _)

/-! ## The common contract of an enumeration -/

/-- The contract of R100: the rows of the table are the variants with their codes, a variant's code decodes
to it, and a code of no variant is `UnsupportedCode`. -/
structure Enumeration {α : Type} {w : Nat} (table : List (Nat × α)) (encode : α → BitVec w)
    (decode : BitVec w → Except Err α) : Prop where
  mem_table : ∀ p, p ∈ table ↔ p.1 = (encode p.2).toNat
  decode_encode : ∀ v, decode (encode v) = .ok v
  decode_cases : ∀ k, (∃ v, encode v = k ∧ decode k = .ok v) ∨
    ((∀ v, encode v ≠ k) ∧ decode k = .error .UnsupportedCode)

/-- A table made from a whole list of variants has just their rows. -/
theorem mem_map_code {α : Type} {w : Nat} {variants : List α} (encode : α → BitVec w)
    (hall : ∀ v, v ∈ variants) (p : Nat × α) :
    p ∈ variants.map (fun v => ((encode v).toNat, v)) ↔ p.1 = (encode p.2).toNat := by
  obtain ⟨n, v⟩ := p
  simp [hall, eq_comm]

theorem recordType_enumeration : Enumeration recordTypeTable rtypeEncode rtypeDecode :=
  ⟨mem_map_code rtypeEncode mem_rtypeVariants, rtypeDecode_encode, rtypeDecode_cases⟩

theorem recordClass_enumeration : Enumeration recordClassTable rclassEncode rclassDecode :=
  ⟨mem_map_code rclassEncode mem_rclassVariants, rclassDecode_encode, rclassDecode_cases⟩

theorem opcode_enumeration : Enumeration opcodeTable opcodeEncode opcodeDecode :=
  ⟨mem_map_code opcodeEncode mem_opcodeVariants, opcodeDecode_encode, opcodeDecode_cases⟩

theorem responseCode_enumeration : Enumeration responseCodeTable rcodeEncode rcodeDecode :=
  ⟨mem_map_code rcodeEncode mem_rcodeVariants, rcodeDecode_encode, rcodeDecode_cases⟩

namespace Enumeration

variable {α : Type} {w : Nat} {table : List (Nat × α)} {encode : α → BitVec w}
  {decode : BitVec w → Except Err α}

/-! The laws of R113. -/

theorem mem_row (h : Enumeration table encode decode) (v : α) : ((encode v).toNat, v) ∈ table :=
  (h.mem_table _).mpr rfl

theorem encode_of_decode (h : Enumeration table encode decode) (k : BitVec w) (v : α)
    (hv : decode k = .ok v) : encode v = k := by
  obtain ⟨u, hu, hok⟩ | ⟨-, herr⟩ := h.decode_cases k
  · cases hok.symm.trans hv
    exact hu
  · cases herr.symm.trans hv

theorem encode_injective (h : Enumeration table encode decode) : Function.Injective encode := by
  intro u v huv
  have hu := h.decode_encode u
  rw [huv, h.decode_encode v] at hu
  exact (Except.ok.inj hu).symm

theorem decode_of_mem (h : Enumeration table encode decode) {k : BitVec w} {p : Nat × α}
    (hp : p ∈ table) (hk : k.toNat = p.1) : decode k = .ok p.2 := by
  have hcode : k = encode p.2 := BitVec.eq_of_toNat_eq (hk.trans ((h.mem_table p).mp hp))
  rw [hcode, h.decode_encode]

theorem decode_of_no_row (h : Enumeration table encode decode) {k : BitVec w}
    (hk : ∀ p ∈ table, p.1 ≠ k.toNat) : decode k = .error .UnsupportedCode := by
  obtain ⟨v, hv, -⟩ | ⟨-, herr⟩ := h.decode_cases k
  · exact absurd (congrArg BitVec.toNat hv) (hk _ (h.mem_row v))
  · exact herr

/-! The three operations as transactions. -/

variable {s : State} {step : Step} {v : α}

/-- `*_DECODE` of a code of the table delivers the variant of its row. -/
theorem conclude_decode_of_mem (h : Enumeration table encode decode) {k : BitVec w}
    {f : α → Result} {p : Nat × α} (hp : p ∈ table) (hk : k.toNat = p.1) :
    s.conclude (decode k >>= fun v => pure (f v)) = .next (s.deliver (.ok (f p.2))) := by
  rw [h.decode_of_mem hp hk]
  rfl

/-- `*_DECODE` of a code outside the table raises `UnsupportedCode`. -/
theorem conclude_decode_of_no_row (h : Enumeration table encode decode) {k : BitVec w}
    {f : α → Result} (hk : ∀ p ∈ table, p.1 ≠ k.toNat) :
    s.conclude (decode k >>= fun v => pure (f v)) = .next (s.raise .UnsupportedCode) := by
  rw [h.decode_of_no_row hk]
  rfl

/-- `*_ENCODE`: a step that delivers a variant's code delivers the code of its row. -/
theorem delivers_code_of_row (h : Enumeration table encode decode) {f : BitVec w → Result}
    (hs : step = .next (s.deliver (.ok (f (encode v))))) :
    ∃ p ∈ table, p.2 = v ∧ step = .next (s.deliver (.ok (f (BitVec.ofNat w p.1)))) := by
  refine ⟨_, h.mem_row v, rfl, ?_⟩
  rw [BitVec.ofNat_toNat, BitVec.setWidth_eq]
  exact hs

/-- `*_BITS`: a step that delivers the bits of a variant's code delivers those of its row's number. -/
theorem delivers_bits_of_row (h : Enumeration table encode decode)
    (hs : step = .next ((s.setOut (bitsN (encode v))).deliver (.ok (.bits (bitsN (encode v)))))) :
    ∃ p ∈ table, p.2 = v ∧
      step = .next ((s.setOut (numberBits w p.1)).deliver (.ok (.bits (numberBits w p.1)))) := by
  refine ⟨_, h.mem_row v, rfl, ?_⟩
  rw [numberBits_toNat]
  exact hs

end Enumeration

/-! ## The codes of the tables -/

theorem recordTypeTable_codes : ∀ p ∈ recordTypeTable, 1 ≤ p.1 ∧ p.1 ≤ 16 ∨ p.1 = 28 := by decide

theorem recordClassTable_codes : ∀ p ∈ recordClassTable, 1 ≤ p.1 ∧ p.1 ≤ 4 := by decide

theorem opcodeTable_codes : ∀ p ∈ opcodeTable, p.1 ≤ 2 := by decide

theorem responseCodeTable_codes : ∀ p ∈ responseCodeTable, p.1 ≤ 5 := by decide

end Sys2Proof.Machine

namespace Sys2Proof.Proofs

open Machine Spec

/-- Settles O19: a code in the table has a row, and a code in one of the ranges outside it has none. -/
theorem codesDecodeByTheirTables : Obligations.CodesDecodeByTheirTables := by
  refine fun s => ⟨fun p hp hk => recordType_enumeration.conclude_decode_of_mem hp hk,
    fun hk => recordType_enumeration.conclude_decode_of_no_row fun p hp => ?_,
    fun p hp hk => recordClass_enumeration.conclude_decode_of_mem hp hk,
    fun hk => recordClass_enumeration.conclude_decode_of_no_row fun p hp => ?_,
    fun p hp hk => opcode_enumeration.conclude_decode_of_mem hp hk,
    fun hk => opcode_enumeration.conclude_decode_of_no_row fun p hp => ?_,
    fun p hp hk => responseCode_enumeration.conclude_decode_of_mem hp hk,
    fun hk => responseCode_enumeration.conclude_decode_of_no_row fun p hp => ?_⟩
  · have hcode := recordTypeTable_codes p hp
    omega
  · have hcode := recordClassTable_codes p hp
    omega
  · have hcode := opcodeTable_codes p hp
    omega
  · have hcode := responseCodeTable_codes p hp
    omega

/-- Settles O22: the laws hold of every enumeration that keeps the contract of R100, and these four do. -/
theorem enumerationsRoundTrip : Obligations.EnumerationsRoundTrip :=
  ⟨⟨rtypeDecode_encode, rclassDecode_encode, opcodeDecode_encode, rcodeDecode_encode⟩,
    ⟨recordType_enumeration.encode_of_decode, recordClass_enumeration.encode_of_decode,
      opcode_enumeration.encode_of_decode, responseCode_enumeration.encode_of_decode⟩,
    ⟨recordType_enumeration.encode_injective, recordClass_enumeration.encode_injective,
      opcode_enumeration.encode_injective, responseCode_enumeration.encode_injective⟩,
    ⟨fun _ => memRead_pack_bitsN _, fun _ => memRead_pack_bitsN _,
      fun _ => memRead_pack_bitsN _, fun _ => memRead_pack_bitsN _⟩⟩

/-- Settles O20: the row of the variant is in the table, and its number is the variant's code. -/
theorem variantsEncodeByTheirTables : Obligations.VariantsEncodeByTheirTables :=
  fun _ => ⟨recordType_enumeration.delivers_code_of_row rfl,
    recordClass_enumeration.delivers_code_of_row rfl,
    opcode_enumeration.delivers_code_of_row rfl,
    responseCode_enumeration.delivers_code_of_row rfl⟩

/-- Settles O21: the bits of the number in the variant's row are the bits of its code. -/
theorem variantsHaveTheBitsOfTheirCodes : Obligations.VariantsHaveTheBitsOfTheirCodes :=
  fun _ => ⟨recordType_enumeration.delivers_bits_of_row rfl,
    recordClass_enumeration.delivers_bits_of_row rfl,
    opcode_enumeration.delivers_bits_of_row rfl,
    responseCode_enumeration.delivers_bits_of_row rfl⟩

end Sys2Proof.Proofs
end

section
/-!
PROOFS. The family of the header: what stands where in its 96 bits, and that HDR_ENCODE and HDR_DECODE are
each the other's inverse on them (spec/42_header.md).
-/

namespace Sys2Proof.Machine

open Spec

/-! ## Reads and held bits -/

/-- The number of a field is what a read of it answers (R15). -/
theorem memRead_of_fieldIs {buf : List Byte} {p n v : Nat} (h : FieldIs buf p n v) :
    memRead buf p n = v :=
  memRead_unique h.1 fun k hk => (h.2 k hk).trans (bitAt_eq_streamBit buf (p + k))

/-- A field that lies inside one byte: `n` bits of byte `j`, with `r` bits of the byte behind them (R13). -/
theorem memRead_inside_byte (buf : List Byte) (j i n r : Nat) (h : i + (n + r) = 8) :
    memRead buf (8 * j + i) n = (buf[j]?.getD 0).toNat / 2 ^ r % 2 ^ n := by
  refine memRead_unique (Nat.mod_lt _ (Nat.two_pow_pos n)) fun k hk => ?_
  have hdiv : (8 * j + i + k) / 8 = j := by omega
  have hmod : (8 * j + i + k) % 8 = i + k := by omega
  have hplace : n - 1 - k + r = 7 - (i + k) := by omega
  have hbyte : i + k < 8 := by omega
  have hfield : n - 1 - k < n := by omega
  simp [streamBit, hdiv, hmod, BitVec.getMsbD, BitVec.getLsbD, Nat.testBit_mod_two_pow,
    Nat.testBit_div_two_pow, hfield, hbyte, hplace]

/-- The bits of a value stand where a read answers the value. -/
theorem holdsAt_bitsN {buf : List Byte} {p n : Nat} {v : BitVec n} (hle : p + n ≤ 8 * buf.length)
    (h : memRead buf p n = v.toNat) : HoldsAt buf p (bitsN v) := by
  rw [HoldsAt, bitsN_length]
  exact ⟨hle, fun k hk => by rw [bitsN_getElem? v k hk, ← h, testBit_memRead buf p n k hk]⟩

/-- At one place stand no two bit sequences of one length. -/
theorem eq_of_holdsAt {buf : List Byte} {p : Nat} {a b : List Bool} (ha : HoldsAt buf p a)
    (hb : HoldsAt buf p b) (hlen : a.length = b.length) : a = b := by
  refine List.ext_getElem? fun k => ?_
  by_cases hk : k < a.length
  · rw [ha.2 k hk, hb.2 k (hlen ▸ hk)]
  · rw [List.getElem?_eq_none (Nat.le_of_not_lt hk), List.getElem?_eq_none (by omega)]

/-- Buffers of one length with the same stream bits are equal (R13). -/
theorem eq_of_streamBit {a b : List Byte} (hlen : a.length = b.length)
    (h : ∀ k, k < 8 * b.length → streamBit a k = streamBit b k) : a = b := by
  refine List.ext_getElem hlen fun j ha hb => BitVec.eq_of_getMsbD_eq fun i hi => ?_
  have hbit := h (8 * j + i) (by omega)
  have hdiv : (8 * j + i) / 8 = j := by omega
  have hmod : (8 * j + i) % 8 = i := by omega
  simpa [streamBit, hdiv, hmod, ha, hb] using hbit

/-- A buffer is what the bits that fill it pack to (R154). -/
theorem pack_eq_of_holdsAt {buf : List Byte} {bits : List Bool} (h : HoldsAt buf 0 bits)
    (hlen : bits.length = 8 * buf.length) : pack bits = buf := by
  refine eq_of_streamBit (by rw [pack_length]; omega) fun k hk => ?_
  rw [streamBit_pack, List.getD_eq_getElem?_getD, h.2 k (hlen ▸ hk), Option.getD_some, Nat.zero_add]

/-- The claims' own bits of bytes are the model's, byte by byte (R13). -/
theorem bitsOf_eq_flatMap_bitsN (bytes : List Byte) : bitsOf bytes = bytes.flatMap bitsN := by
  refine congrArg (bytes.flatMap ·) (funext fun b => List.map_congr_left fun i hi => ?_)
  simp [BitVec.getMsbD, List.mem_range.mp hi]

/-! ## The fields of a header in a buffer -/

/-- The wire fields of `h` are what is read at their places from stream position `p` on, Z being 0
(R61, R62). -/
structure HeaderAt (buf : List Byte) (p : Nat) (h : Header) : Prop where
  le : p + 96 ≤ 8 * buf.length
  id : memRead buf p 16 = h.id.toNat
  qr : memRead buf (p + 16) 1 = (qrBit h.qr).toNat
  opcode : memRead buf (p + 17) 4 = (opcodeEncode h.opcode).toNat
  aa : memRead buf (p + 21) 1 = h.aa.toNat
  tc : memRead buf (p + 22) 1 = h.tc.toNat
  rd : memRead buf (p + 23) 1 = h.rd.toNat
  ra : memRead buf (p + 24) 1 = h.ra.toNat
  z : memRead buf (p + 25) 3 = 0
  rcode : memRead buf (p + 28) 4 = (rcodeEncode h.rcode).toNat
  qdcount : memRead buf (p + 32) 16 = h.qdcount.toNat
  ancount : memRead buf (p + 48) 16 = h.ancount.toNat
  nscount : memRead buf (p + 64) 16 = h.nscount.toNat
  arcount : memRead buf (p + 80) 16 = h.arcount.toNat

theorem toNat_boolBit (b : Bool) : (boolBit b).toNat = b.toNat := by
  cases b <;> rfl

theorem toNat_qrBit_qrOfBit (b : Bool) : (qrBit (qrOfBit b)).toNat = b.toNat := by
  cases b <;> rfl

/-- Where the fields of a header stand, the bits that HDR_ENCODE emits for it stand (R124). -/
theorem HeaderAt.holdsAt {buf : List Byte} {p : Nat} {h : Header} (hh : HeaderAt buf p h) :
    HoldsAt buf p (hdrEncode h) := by
  have hle := hh.le
  simp only [hdrEncode, emit, List.nil_append, holdsAt_append, and_assoc, List.length_append,
    bitsN_length, Nat.reduceAdd]
  refine ⟨holdsAt_bitsN ?_ hh.id, holdsAt_bitsN ?_ hh.qr, holdsAt_bitsN ?_ hh.opcode,
    holdsAt_bitsN ?_ (hh.aa.trans (toNat_boolBit _).symm),
    holdsAt_bitsN ?_ (hh.tc.trans (toNat_boolBit _).symm),
    holdsAt_bitsN ?_ (hh.rd.trans (toNat_boolBit _).symm),
    holdsAt_bitsN ?_ (hh.ra.trans (toNat_boolBit _).symm), holdsAt_bitsN ?_ hh.z,
    holdsAt_bitsN ?_ hh.rcode, holdsAt_bitsN ?_ hh.qdcount, holdsAt_bitsN ?_ hh.ancount,
    holdsAt_bitsN ?_ hh.nscount, holdsAt_bitsN ?_ hh.arcount⟩ <;> omega

/-! ## The packer -/

/-- Two bytes, high byte first, are read as the number they are made of (R40). -/
theorem memRead_u16Bytes {buf : List Byte} {j : Nat} (v : U16)
    (hhigh : buf[j]?.getD 0 = BitVec.ofNat 8 (v.toNat / 256))
    (hlow : buf[j + 1]?.getD 0 = BitVec.ofNat 8 (v.toNat % 256)) :
    memRead buf (8 * j) 16 = v.toNat := by
  have hv := v.isLt
  rw [memRead_word, hhigh, hlow, BitVec.toNat_ofNat, BitVec.toNat_ofNat]
  omega

/-- Header byte 2 as the sum of its five fields at their weights (R62). -/
theorem flagByte2_eq (h : Header) :
    flagByte2 h = (qrBit h.qr).toNat * 128 + (opcodeEncode h.opcode).toNat * 8 + h.aa.toNat * 4
      + h.tc.toNat * 2 + h.rd.toNat := by
  unfold flagByte2
  cases h.qr <;> rfl

/-- A field in header byte 2, with `r` bits of the byte behind it (R62). -/
theorem memRead_flagByte2 (h : Header) (i n r : Nat) (hw : i + (n + r) = 8) :
    memRead (headerBytes h) (8 * 2 + i) n = flagByte2 h / 2 ^ r % 2 ^ n := by
  have hqr := (qrBit h.qr).isLt
  have hop := (opcodeEncode h.opcode).isLt
  have haa := h.aa.toNat_le
  have htc := h.tc.toNat_le
  have hrd := h.rd.toNat_le
  have hlt : flagByte2 h < 256 := by rw [flagByte2_eq]; omega
  have hbyte : ((headerBytes h)[2]?.getD 0).toNat = flagByte2 h := Nat.mod_eq_of_lt hlt
  rw [memRead_inside_byte _ _ _ _ _ hw, hbyte]

/-- A field in header byte 3, with `r` bits of the byte behind it (R62). -/
theorem memRead_flagByte3 (h : Header) (i n r : Nat) (hw : i + (n + r) = 8) :
    memRead (headerBytes h) (8 * 3 + i) n = flagByte3 h / 2 ^ r % 2 ^ n := by
  have hra := h.ra.toNat_le
  have hrc := (rcodeEncode h.rcode).isLt
  have hlt : flagByte3 h < 256 := by unfold flagByte3; omega
  have hbyte : ((headerBytes h)[3]?.getD 0).toNat = flagByte3 h := Nat.mod_eq_of_lt hlt
  rw [memRead_inside_byte _ _ _ _ _ hw, hbyte]

/-- In the twelve bytes of a header its fields stand at their places (R61, R62). -/
theorem headerAt_headerBytes (h : Header) : HeaderAt (headerBytes h) 0 h := by
  have hqr := (qrBit h.qr).isLt
  have hop := (opcodeEncode h.opcode).isLt
  have haa := h.aa.toNat_le
  have htc := h.tc.toNat_le
  have hrd := h.rd.toNat_le
  have hra := h.ra.toNat_le
  have hrc := (rcodeEncode h.rcode).isLt
  exact {
    le := Nat.le_refl 96
    id := memRead_u16Bytes (j := 0) _ rfl rfl
    qr := (memRead_flagByte2 h 0 1 7 rfl).trans (by rw [flagByte2_eq]; omega)
    opcode := (memRead_flagByte2 h 1 4 3 rfl).trans (by rw [flagByte2_eq]; omega)
    aa := (memRead_flagByte2 h 5 1 2 rfl).trans (by rw [flagByte2_eq]; omega)
    tc := (memRead_flagByte2 h 6 1 1 rfl).trans (by rw [flagByte2_eq]; omega)
    rd := (memRead_flagByte2 h 7 1 0 rfl).trans (by rw [flagByte2_eq]; omega)
    ra := (memRead_flagByte3 h 0 1 7 rfl).trans (by rw [flagByte3]; omega)
    z := (memRead_flagByte3 h 1 3 4 rfl).trans (by rw [flagByte3]; omega)
    rcode := (memRead_flagByte3 h 4 4 0 rfl).trans (by rw [flagByte3]; omega)
    qdcount := memRead_u16Bytes (j := 4) _ rfl rfl
    ancount := memRead_u16Bytes (j := 6) _ rfl rfl
    nscount := memRead_u16Bytes (j := 8) _ rfl rfl
    arcount := memRead_u16Bytes (j := 10) _ rfl rfl }

/-- HDR_ENCODE emits the bits of the header's twelve bytes (R124). -/
theorem hdrEncode_eq_bitsOf (h : Header) : hdrEncode h = bitsOf (headerBytes h) := by
  rw [bitsOf_eq_flatMap_bitsN]
  refine eq_of_holdsAt (headerAt_headerBytes h).holdsAt (holdsAt_bytes _) ?_
  rw [hdrEncode_length, flatMap_bitsN_length]
  rfl

/-! ## The unpacker -/

theorem exists_row_of_opcode_lt : ∀ n < 3, ∃ p ∈ opcodeTable, n = p.1 := by decide

theorem exists_row_of_rcode_lt : ∀ n < 6, ∃ p ∈ responseCodeTable, n = p.1 := by decide

/-- The opcode nibbles outside the table are 3 to 15 (R71, R107). -/
theorem opcodeDecode_of_ge {k : U4} (h : 3 ≤ k.toNat) : opcodeDecode k = .error .UnsupportedCode :=
  opcode_enumeration.decode_of_no_row fun p hp => by have := opcodeTable_codes p hp; omega

/-- The response-code nibbles outside the table are 6 to 15 (R72, R110). -/
theorem rcodeDecode_of_ge {k : U4} (h : 6 ≤ k.toNat) : rcodeDecode k = .error .UnsupportedCode :=
  responseCode_enumeration.decode_of_no_row fun p hp => by have := responseCodeTable_codes p hp; omega

section
variable {buf : List Byte} {c : Cursor}

/-- The header read where its two codes have rows in their tables has its fields there. -/
theorem headerAt_headerFrom {p : Nat} {op : Opcode} {rc : ResponseCode}
    (hle : p + 96 ≤ 8 * buf.length) (hz : memRead buf (p + 25) 3 = 0)
    (hop : memRead buf (p + 17) 4 = (opcodeEncode op).toNat)
    (hrc : memRead buf (p + 28) 4 = (rcodeEncode rc).toNat) :
    HeaderAt buf p (headerFrom buf p op rc) where
  le := hle
  id := (toNat_ofNat_memRead _ _ _).symm
  qr := (memRead_one _ _).trans (toNat_qrBit_qrOfBit _).symm
  opcode := hop
  aa := memRead_one _ _
  tc := memRead_one _ _
  rd := memRead_one _ _
  ra := memRead_one _ _
  z := hz
  rcode := hrc
  qdcount := (toNat_ofNat_memRead _ _ _).symm
  ancount := (toNat_ofNat_memRead _ _ _).symm
  nscount := (toNat_ofNat_memRead _ _ _).symm
  arcount := (toNat_ofNat_memRead _ _ _).symm

/-- HDR_DECODE yields a header whose fields stand where it reads (R125). -/
theorem headerAt_of_hdrDecode {h : Header} {c' : Cursor} (hd : hdrDecode buf c = .ok (h, c')) :
    HeaderAt buf c.pos h := by
  have hle := (hdrDecode_advances hd).2
  rw [hdrDecode_of_le hle] at hd
  split at hd
  · cases hd
  next hz =>
    split at hd
    · cases hd
    next op hop =>
      split at hd
      · cases hd
      next rc hrc =>
        obtain ⟨rfl, -⟩ := Prod.mk.inj (Except.ok.inj hd)
        refine headerAt_headerFrom hle (not_not.mp hz) ?_ ?_
        · rw [opcode_enumeration.encode_of_decode _ _ hop, toNat_ofNat_memRead]
        · rw [responseCode_enumeration.encode_of_decode _ _ hrc, toNat_ofNat_memRead]

/-- Check 2 of HDR_DECODE (R125). -/
theorem hdrDecode_of_reserved (hle : c.pos + 96 ≤ 8 * buf.length)
    (hz : memRead buf (c.pos + 25) 3 ≠ 0) : hdrDecode buf c = .error .MalformedReserved := by
  rw [hdrDecode_of_le hle, if_pos hz]

/-- Checks 3 and 4 of HDR_DECODE (R125). -/
theorem hdrDecode_of_unsupported (hle : c.pos + 96 ≤ 8 * buf.length)
    (hz : memRead buf (c.pos + 25) 3 = 0)
    (hcode : 3 ≤ memRead buf (c.pos + 17) 4 ∨ 6 ≤ memRead buf (c.pos + 28) 4) :
    hdrDecode buf c = .error .UnsupportedCode := by
  rw [hdrDecode_of_le hle, if_neg (not_not.mpr hz)]
  by_cases hop : 3 ≤ memRead buf (c.pos + 17) 4
  · rw [opcodeDecode_of_ge (by rwa [toNat_ofNat_memRead])]
  · obtain ⟨p, hp, hrow⟩ := exists_row_of_opcode_lt _ (Nat.lt_of_not_le hop)
    rw [opcode_enumeration.decode_of_mem hp ((toNat_ofNat_memRead _ _ _).trans hrow),
      rcodeDecode_of_ge (by rw [toNat_ofNat_memRead]; exact hcode.resolve_left hop)]

/-- HDR_DECODE past its four checks: the two codes have rows in their tables (R125). -/
theorem hdrDecode_of_rows (hle : c.pos + 96 ≤ 8 * buf.length)
    (hz : memRead buf (c.pos + 25) 3 = 0) {p : Nat × Opcode} (hp : p ∈ opcodeTable)
    (hop : memRead buf (c.pos + 17) 4 = p.1) {q : Nat × ResponseCode} (hq : q ∈ responseCodeTable)
    (hrc : memRead buf (c.pos + 28) 4 = q.1) :
    hdrDecode buf c = .ok (headerFrom buf c.pos p.2 q.2, Cursor.ofPos (c.pos + 96)) := by
  rw [hdrDecode_of_le hle, if_neg (not_not.mpr hz),
    opcode_enumeration.decode_of_mem hp ((toNat_ofNat_memRead _ _ _).trans hop),
    responseCode_enumeration.decode_of_mem hq ((toNat_ofNat_memRead _ _ _).trans hrc)]

/-- The bits that HDR_DECODE takes for a header: Z is 0 and both nibbles are in their tables (R126 (c)). -/
theorem exists_hdrDecode_ok_iff (hle : c.pos + 96 ≤ 8 * buf.length) :
    (∃ h c', hdrDecode buf c = .ok (h, c')) ↔
      memRead buf (c.pos + 25) 3 = 0 ∧ memRead buf (c.pos + 17) 4 ≤ 2 ∧
        memRead buf (c.pos + 28) 4 ≤ 5 := by
  constructor
  · rintro ⟨h, c', hd⟩
    have hat := headerAt_of_hdrDecode hd
    rw [hat.opcode, hat.rcode]
    exact ⟨hat.z, opcodeTable_codes _ (opcode_enumeration.mem_row _), rcodeEncode_le _⟩
  · rintro ⟨hz, hop, hrc⟩
    obtain ⟨p, hp, hop⟩ := exists_row_of_opcode_lt _ (Nat.lt_succ_of_le hop)
    obtain ⟨q, hq, hrc⟩ := exists_row_of_rcode_lt _ (Nat.lt_succ_of_le hrc)
    exact ⟨_, _, hdrDecode_of_rows hle hz hp hop hq hrc⟩

end

end Sys2Proof.Machine

namespace Sys2Proof.Proofs

open Machine Spec

/-- Settles O26: a header decodes exactly where its fields stand, which is where its encoded bits stand. -/
theorem headersRoundTrip : Obligations.HeadersRoundTrip := by
  refine ⟨fun h => hdrDecode_of_holdsAt (holdsAt_pack _), fun b h c hb hd => ?_, fun b hb => ?_⟩
  · refine pack_eq_of_holdsAt (headerAt_of_hdrDecode hd).holdsAt ?_
    rw [hdrEncode_length, hb]
  · have hz : memRead b 25 3 = (b[3]?.getD 0).toNat / 16 % 8 := memRead_inside_byte b 3 1 3 4 rfl
    have hop : memRead b 17 4 = (b[2]?.getD 0).toNat / 8 % 16 := memRead_inside_byte b 2 1 4 3 rfl
    have hrc : memRead b 28 4 = (b[3]?.getD 0).toNat / 1 % 16 := memRead_inside_byte b 3 4 4 0 rfl
    rw [exists_hdrDecode_ok_iff (by rw [Cursor.pos_origin]; omega), Cursor.pos_origin, Nat.zero_add,
      Nat.zero_add, Nat.zero_add, hz, hop, hrc, Nat.div_one]

/-- Settles O24: the bits emitted are those of the header's twelve bytes. -/
theorem hdrEncodePacksTheLayout : Obligations.HdrEncodePacksTheLayout := by
  intro s
  rw [← hdrEncode_eq_bitsOf]
  exact ⟨hdrEncode_length _, rfl⟩

/-- Settles O25: the four checks in their order, on the fields read at their places. -/
theorem hdrDecodeUnpacksTheLayout : Obligations.HdrDecodeUnpacksTheLayout := by
  refine fun s z op rc hc => ⟨fun hlt => withCursor_conclude_of_error hc (hdrDecode_of_lt hlt),
    fun hle hz hop hrc => ?_⟩
  obtain rfl := memRead_of_fieldIs hz
  obtain rfl := memRead_of_fieldIs hop
  obtain rfl := memRead_of_fieldIs hrc
  refine ⟨fun hz => withCursor_conclude_of_error hc (hdrDecode_of_reserved hle hz),
    fun hz hcode => withCursor_conclude_of_error hc (hdrDecode_of_unsupported hle hz hcode),
    fun hz hop hrc => ?_⟩
  obtain ⟨p, hp, hop⟩ := exists_row_of_opcode_lt _ hop
  obtain ⟨q, hq, hrc⟩ := exists_row_of_rcode_lt _ hrc
  simp only [bitAt_eq_streamBit, hop, hrc]
  refine ⟨headerFrom s.args.buf s.args.cur.pos p.2 q.2,
    withCursor_conclude_of_ok hc (hdrDecode_of_rows hle hz hp hop hq hrc) rfl,
    ?_, rfl, hp, rfl, rfl, rfl, rfl, hq, ?_, ?_, ?_, ?_⟩ <;>
  · rw [headerFrom, toNat_ofNat_memRead]
    exact fieldIs_memRead _ _ _

/-- Settles O23: the meaning of HDR_NEW is one delivery, of the record R122 writes out. -/
theorem hdrNewBuildsTheDefaultQuery : Obligations.HdrNewBuildsTheDefaultQuery :=
  fun _ => rfl

end Sys2Proof.Proofs
end

section
/-!
PROOFS. The family of the name: NAME_SPLIT is the library's split at a byte, NAME_ENCODE emits the name's bytes,
and NAME_DECODE reads a name exactly where its bits stand, as each decoder does with what it reads
(spec/43_name.md).
-/

namespace Sys2Proof.Machine

open Spec

/-! ## Splitting at the dots -/

theorem splitParts_eq_splitOnPPrepend (s : List Byte) (part : Label) :
    splitParts s part = List.splitOnPPrepend (· == 0x2E) s part.reverse := by
  induction s generalizing part with
  | nil => simp [splitParts]
  | cons b s ih => simp [splitParts, List.splitOnPPrepend_cons_eq_if, ih]

/-- The parts of a string are the library's split at the dot (R131). -/
theorem splitParts_nil (s : List Byte) : splitParts s [] = s.splitOn 0x2E :=
  splitParts_eq_splitOnPPrepend s []

theorem splitParts_length (s : List Byte) (part : Label) :
    (splitParts s part).length = s.count 0x2E + 1 := by
  induction s generalizing part with
  | nil => rfl
  | cons b s ih =>
    rw [splitParts]
    split_ifs with hb
    · rw [hb, List.length_cons, ih, List.count_cons_self]
    · rw [ih, List.count_cons_of_ne hb]

theorem dot_not_mem_of_mem_splitParts {s : List Byte} {part l : Label} (hpart : (0x2E : Byte) ∉ part)
    (hl : l ∈ splitParts s part) : (0x2E : Byte) ∉ l := by
  induction s generalizing part with
  | nil => rwa [List.mem_singleton.mp hl]
  | cons b s ih =>
    rw [splitParts] at hl
    split_ifs at hl with hb
    · obtain rfl | hl := List.mem_cons.mp hl
      · exact hpart
      · exact ih List.not_mem_nil hl
    · refine ih (fun hmem => ?_) hl
      obtain hmem | hmem := List.mem_append.mp hmem
      · exact hpart hmem
      · exact hb (List.mem_singleton.mp hmem).symm

theorem nameSplit_of_ne_nil {s : List Byte} (h : s ≠ []) : nameSplit s = splitParts s [] :=
  if_neg (mt List.length_eq_zero_iff.mp h)

/-! ## The bytes of a name -/

theorem nameBytes_length (n : Name) : (nameBytes n).length = encLen n := by
  induction n with
  | nil => rfl
  | cons l n ih =>
    simp only [nameBytes, List.flatMap_cons, List.length_append, List.length_cons] at ih ⊢
    rw [encLen_cons]
    omega

/-- The bits that NAME_ENCODE emits are those of the name's bytes (R132). -/
theorem bitsOf_nameBytes (n : Name) : bitsOf (nameBytes n) = nameBits n := by
  rw [bitsOf_eq_flatMap_bitsN, nameBytes, nameBits, List.flatMap_append, List.flatMap_assoc,
    List.flatMap_singleton]
  rfl

/-! ## Bits that stand in a buffer and bytes behind it -/

section
variable {buf : List Byte} {p : Nat} {bits : List Bool}

/-- Bytes behind a buffer change nothing that stands in it. -/
theorem holdsAt_append_bytes (more : List Byte) (hle : p + bits.length ≤ 8 * buf.length) :
    HoldsAt (buf ++ more) p bits ↔ HoldsAt buf p bits := by
  have hmore : p + bits.length ≤ 8 * (buf ++ more).length := by rw [List.length_append]; omega
  refine (and_iff_right hmore).trans (Iff.trans ?_ (and_iff_right hle).symm)
  refine forall₂_congr fun k hk => ?_
  rw [streamBit_append buf more _ (by omega)]

theorem HoldsAt.append_bytes (h : HoldsAt buf p bits) (more : List Byte) :
    HoldsAt (buf ++ more) p bits :=
  (holdsAt_append_bytes more h.1).mpr h

/-- Whole bytes of bits that stand at the origin pack to the first bytes of the buffer (R154). -/
theorem pack_eq_take_of_holdsAt {k : Nat} (h : HoldsAt buf 0 bits) (hlen : bits.length = 8 * k) :
    pack bits = buf.take k := by
  have hk : (buf.take k).length = k := by
    have hle := h.1
    rw [List.length_take]
    omega
  refine pack_eq_of_holdsAt ?_ (by rw [hlen, hk])
  rwa [← holdsAt_append_bytes (buf.drop k) (by omega), List.take_append_drop]

end

/-! ## What a decoder reads stands in the buffer -/

section
variable {buf : List Byte} {c c' : Cursor}

theorem holdsAt_ofNat_memRead {p n : Nat} (hle : p + n ≤ 8 * buf.length) :
    HoldsAt buf p (bitsN (BitVec.ofNat n (memRead buf p n))) :=
  holdsAt_bitsN hle (toNat_ofNat_memRead buf p n).symm

theorem holdsAt_of_takeU16 {v : U16} (h : takeU16 buf c = .ok (c', v)) :
    HoldsAt buf c.pos (bitsN v) := by
  have hle := (takeU16_advances h).2
  rw [takeU16_of_le hle] at h
  cases h
  exact holdsAt_ofNat_memRead hle

theorem holdsAt_bytesFrom {p k : Nat} (hle : p + 8 * k ≤ 8 * buf.length) :
    HoldsAt buf p ((bytesFrom buf p k).flatMap bitsN) := by
  induction k generalizing p with
  | zero => exact ⟨hle, nofun⟩
  | succ k ih =>
    rw [bytesFrom_succ, List.flatMap_cons, holdsAt_append, bitsN_length]
    exact ⟨holdsAt_ofNat_memRead (by omega), ih (by omega)⟩

/-- What one turn of NAME_DECODE has read when it ends the name: a length byte 0 (R134). -/
theorem memRead_of_nameDecode_nil {p : Nat} (h : nameDecode buf (Cursor.ofPos p) = .ok ([], c')) :
    p + 8 ≤ 8 * buf.length ∧ memRead buf p 8 = 0 := by
  rw [nameDecode_eq] at h
  split_ifs at h with hlt h0
  · exact ⟨Nat.le_of_not_lt hlt, h0⟩
  · split at h <;> cases h

/-- What one turn of NAME_DECODE has read when it gives a label: the label's length byte and its bytes,
the rest of the name being decoded from behind them (R134). -/
theorem label_of_nameDecode_cons {p : Nat} {l : Label} {n : Name}
    (h : nameDecode buf (Cursor.ofPos p) = .ok (l :: n, c')) :
    p + 8 + 8 * l.length ≤ 8 * buf.length ∧ memRead buf p 8 = l.length ∧
      bytesFrom buf (p + 8) l.length = l ∧
      nameDecode buf (Cursor.ofPos (p + 8 + 8 * l.length)) = .ok (n, c') := by
  rw [nameDecode_eq] at h
  split_ifs at h with _ _ _ hlt
  · cases h
  · split at h
    · next hrest =>
      obtain ⟨hlist, rfl⟩ := Prod.mk.inj (Except.ok.inj h)
      obtain ⟨rfl, rfl⟩ := List.cons.inj hlist
      rw [bytesFrom_length]
      exact ⟨Nat.le_of_not_lt hlt, rfl, rfl, hrest⟩
    · cases h

/-- The bits of a name that NAME_DECODE reads stand where it reads (R135 (b)). -/
theorem holdsAt_of_nameDecode {n : Name} (h : nameDecode buf c = .ok (n, c')) :
    HoldsAt buf c.pos (nameBits n) := by
  have hlabels := (nameDecode_ok h).1
  rw [← nameDecode_ofPos] at h
  generalize c.pos = p at h ⊢
  induction n generalizing p with
  | nil =>
    obtain ⟨hle, hbyte⟩ := memRead_of_nameDecode_nil h
    exact holdsAt_bitsN (v := (0 : Byte)) hle hbyte
  | cons l n ih =>
    obtain ⟨hl, hn⟩ := (labelsWellFormed_cons l n).mp hlabels
    obtain ⟨hle, hbyte, hbytes, hrest⟩ := label_of_nameDecode_cons h
    rw [nameBits_cons, holdsAt_append, labelBits_length, Nat.mul_add, Nat.mul_one, ← Nat.add_assoc,
      labelBits, holdsAt_append, bitsN_length]
    refine ⟨⟨holdsAt_bitsN (by omega) ?_, ?_⟩, ih hn _ hrest⟩
    · rw [hbyte, toNat_ofNat_label_length hl]
    · have hlabel := holdsAt_bytesFrom hle
      rwa [hbytes] at hlabel

/-- The bits of a question that Q_DECODE reads stand where it reads (R143 (b)). -/
theorem holdsAt_of_qDecode {q : Question} (h : qDecode buf c = .ok (q, c')) :
    HoldsAt buf c.pos (questionBits q) := by
  obtain ⟨⟨n, c₁⟩, hname, h⟩ := bind_eq_ok.mp h
  obtain ⟨⟨c₂, t⟩, htype, h⟩ := bind_eq_ok.mp h
  obtain ⟨qtype, hqtype, h⟩ := bind_eq_ok.mp h
  obtain ⟨⟨c₃, k⟩, hclass, h⟩ := bind_eq_ok.mp h
  obtain ⟨qclass, hqclass, h⟩ := bind_eq_ok.mp h
  cases h
  have hpos := (nameDecode_ok hname).2.pos_eq
  have hpos' := (takeU16_advances htype).pos_eq
  rw [questionBits, rtypeBits, rclassBits, recordType_enumeration.encode_of_decode _ _ hqtype,
    recordClass_enumeration.encode_of_decode _ _ hqclass, holdsAt_append, holdsAt_append,
    List.length_append, nameBits_length, bitsN_length, ← Nat.add_assoc, ← hpos, ← hpos']
  exact ⟨⟨holdsAt_of_nameDecode hname, holdsAt_of_takeU16 htype⟩, holdsAt_of_takeU16 hclass⟩

/-- The bits of questions decoded in a row stand one behind the other (R155). -/
theorem holdsAt_of_readQuestions {k : Nat} {qs : List Question} (hc : c.pos ≤ 8 * buf.length)
    (h : readQuestions buf k c = .ok qs) : HoldsAt buf c.pos (qs.flatMap questionBits) := by
  induction k generalizing c qs with
  | zero => cases h; exact ⟨hc, nofun⟩
  | succ k ih =>
    obtain ⟨⟨q, c₁⟩, hq, h⟩ := bind_eq_ok.mp h
    obtain ⟨rest, hrest, h⟩ := bind_eq_ok.mp h
    cases h
    obtain ⟨-, hadv⟩ := qDecode_ok hq
    rw [List.flatMap_cons, holdsAt_append, questionBits_length, ← hadv.pos_eq]
    exact ⟨holdsAt_of_qDecode hq, ih hadv.wellFormed.2 hrest⟩

/-- The bits of a message that MSG_DECODE reads stand at the origin (R156 (b)). -/
theorem holdsAt_of_msgDecode {m : Message} (h : msgDecode buf = .ok m) :
    HoldsAt buf 0 (hdrEncode m.hdr ++ m.qs.flatMap questionBits) := by
  obtain ⟨⟨hdr, c₁⟩, hhdr, h⟩ := bind_eq_ok.mp h
  obtain ⟨qs, hqs, h⟩ := bind_eq_ok.mp h
  cases h
  have hadv := hdrDecode_advances hhdr
  have hpos : c₁.pos = 0 + 96 := hadv.pos_eq
  rw [holdsAt_append, hdrEncode_length, ← hpos]
  exact ⟨(headerAt_of_hdrDecode hhdr).holdsAt, holdsAt_of_readQuestions hadv.wellFormed.2 hqs⟩

end

end Sys2Proof.Machine

namespace Sys2Proof.Proofs

open Machine Spec

/-- Settles O30: a name decodes exactly where its encoded bits stand, and only with good labels. -/
theorem namesRoundTrip : Obligations.NamesRoundTrip := by
  have horigin (n : Name) : Cursor.ofPos (0 + 8 * encLen n) = ⟨encLen n, 0⟩ := by
    rw [Nat.zero_add, Cursor.ofPos_bytes]
  refine ⟨fun n hn => ⟨nameBits n, nameEncode_eq_nameBits hn, ?_⟩, fun b n c hd => ?_,
    fun b c c' n hd l hl => ?_⟩
  · rw [← horigin]
    exact nameDecode_of_holdsAt hn (holdsAt_pack _)
  · obtain ⟨hlabels, hcursor, -⟩ := nameDecode_ok hd
    exact ⟨hlabels, hcursor.trans (horigin n), nameBits n, nameEncode_eq_nameBits hlabels,
      pack_eq_take_of_holdsAt (holdsAt_of_nameDecode hd) (nameBits_length n)⟩
  · have hgood := (labelWellFormed_iff l).mp (List.all_eq_true.mp (nameDecode_ok hd).1 l hl)
    exact ⟨List.ne_nil_of_length_pos hgood.1, Nat.lt_succ_of_le hgood.2⟩

/-- Settles O27: the parts are the library's split at the dot, which joined with dots is the string. -/
theorem nameSplitCutsAtEveryDot : Obligations.NameSplitCutsAtEveryDot := by
  refine fun s => ⟨nameSplit s.args.str, rfl, fun h => by rw [h]; rfl, fun h => ?_⟩
  rw [nameSplit_of_ne_nil h]
  refine ⟨splitParts_length _ _, fun l hl => dot_not_mem_of_mem_splitParts List.not_mem_nil hl, ?_⟩
  rw [splitParts_nil, List.intercalate_splitOn]

/-- Settles O28: the bits emitted are those of the name's bytes, or the first offending label's error. -/
theorem nameEncodeEmitsTheLabels : Obligations.NameEncodeEmitsTheLabels := by
  intro s
  have hexec : exec .nameEncode s = s.concludeOut .bits (nameEncode s.args.name) := rfl
  refine ⟨fun hn => ⟨nameBytes_length _, ?_⟩, ?_⟩
  · rw [hexec, nameEncode_eq_nameBits hn, bitsOf_nameBytes, concludeOut_ok]
  · rintro l ⟨before, after, hname, hbefore, -⟩
    obtain ⟨hlong, hempty⟩ := emitLabels_error [] before l after hbefore
    rw [hexec, nameEncode, hname]
    exact ⟨fun h => by rw [hlong h, concludeOut_error],
      fun h => by rw [hempty h, concludeOut_error]⟩

/-- Settles O29: one turn of the unbounded loop, its branches in the order of the checks. -/
theorem nameDecodeWalksTheLabels : Obligations.NameDecodeWalksTheLabels := by
  refine ⟨fun s hc => ⟨fun n c hd => withCursor_conclude_of_ok hc hd rfl,
    fun e hd => withCursor_conclude_of_error hc hd⟩, fun buf c hc => ?_⟩
  rw [← nameDecode_ofPos, nameDecode_eq]
  refine ⟨fun hlt => if_pos hlt, fun len hle hlen => ?_⟩
  rw [memRead_of_fieldIs hlen, if_neg (Nat.not_lt.mpr hle)]
  refine ⟨fun h0 => if_pos h0, fun h64 => ?_, fun h1 h63 hlt => ?_, fun h1 h63 hle => ?_⟩
  · rw [if_neg (by omega), if_pos h64]
  · rw [if_neg (by omega), if_neg (by omega), if_pos hlt]
  · refine ⟨bytesFrom buf (c.pos + 8) len, bytesFrom_length _ _ _, fun j hj => ?_, ?_⟩
    · rw [bytesFrom_getElem? _ _ hj, Option.getD_some, toNat_ofNat_memRead]
      exact fieldIs_memRead _ _ _
    · rw [if_neg (by omega), if_neg (by omega), if_neg (Nat.not_lt.mpr hle)]
      rfl

/-- Settles O41: what a decoder has read stands in the buffer, and still stands there with bytes behind it. -/
theorem bytesBehindAreNotRead : Obligations.BytesBehindAreNotRead := by
  intro b more c hc
  refine ⟨fun h c' hd => ?_, fun n c' hd => ?_, fun q c' hd => ?_, fun m hd => ?_⟩
  · rw [(hdrDecode_advances hd).1]
    exact hdrDecode_of_holdsAt ((headerAt_of_hdrDecode hd).holdsAt.append_bytes more)
  · obtain ⟨hlabels, hcursor, -⟩ := nameDecode_ok hd
    rw [hcursor, ← nameDecode_ofPos]
    exact nameDecode_of_holdsAt hlabels ((holdsAt_of_nameDecode hd).append_bytes more)
  · obtain ⟨hlabels, hcursor, -⟩ := qDecode_ok hd
    have hstill := qDecode_of_holdsAt hlabels ((holdsAt_of_qDecode hd).append_bytes more)
    rwa [Cursor.ofPos_pos c hc.1, ← hcursor] at hstill
  · exact msgDecode_of_holdsAt (msgDecode_wellFormed hd) ((holdsAt_of_msgDecode hd).append_bytes more)

end Sys2Proof.Proofs
end

section
/-!
PROOFS. The family of the question: Q_ENCODE emits the bits of the question's bytes, Q_DECODE is its reads and
decodes in sequence, and it reads a question exactly where the question's bits stand (spec/44_question.md).
-/

namespace Sys2Proof.Machine

open Spec

/-! ## The bytes of a question -/

/-- The bits of a 16-bit field on a byte boundary are those of its two bytes, high byte first (R40). -/
theorem bitsOf_u16Bytes (v : U16) : bitsOf (u16Bytes v) = bitsN v := by
  rw [bitsOf_eq_flatMap_bitsN]
  refine eq_of_holdsAt (holdsAt_bytes _) (holdsAt_bitsN (Nat.le_refl 16) ?_) ?_
  · exact memRead_u16Bytes (j := 0) v rfl rfl
  · rw [flatMap_bitsN_length, bitsN_length]
    rfl

/-- The bits of bytes in a row are the bits of the bytes in a row. -/
theorem bitsOf_append (a b : List Byte) : bitsOf (a ++ b) = bitsOf a ++ bitsOf b :=
  List.flatMap_append

/-- The bits that Q_ENCODE emits are those of the question's bytes (R65, R141). -/
theorem bitsOf_questionBytes (q : Question) : bitsOf (questionBytes q) = questionBits q := by
  rw [questionBytes, bitsOf_append, bitsOf_append, bitsOf_nameBytes, bitsOf_u16Bytes, bitsOf_u16Bytes]
  rfl

theorem questionBytes_length (q : Question) : (questionBytes q).length = encLen q.name + 4 := by
  rw [questionBytes, List.length_append, List.length_append, nameBytes_length]
  rfl

/-- The first offending label of the name decides the error of Q_ENCODE (R141). -/
theorem qEncode_error {q : Question} {l : Label} (h : FirstBadLabel q.name l) :
    (64 ≤ l.length → qEncode q = .error .LabelTooLong) ∧
    (l.length = 0 → qEncode q = .error .EmptyLabel) := by
  obtain ⟨before, after, hname, hbefore, -⟩ := h
  obtain ⟨hlong, hempty⟩ := emitLabels_error [] before l after hbefore
  rw [qEncode_eq, nameEncode, hname]
  exact ⟨fun h => by rw [hlong h], fun h => by rw [hempty h]⟩

/-! ## Q_DECODE behind its name -/

section
variable {buf : List Byte} {c c' : Cursor} {n : Name} {t k : Nat} {qtype : RecordType}
  {qclass : RecordClass}

/-- Too few bits for the type (R142). -/
theorem qDecode_of_type_missing (hname : nameDecode buf c = .ok (n, c'))
    (hlt : 8 * buf.length < c'.pos + 16) : qDecode buf c = .error .Underrun := by
  rw [qDecode_of_name hname, if_pos hlt]

/-- A type code outside its table, whatever stands behind it (R142). -/
theorem qDecode_of_type_unsupported (hname : nameDecode buf c = .ok (n, c'))
    (hle : c'.pos + 16 ≤ 8 * buf.length) (ht : FieldIs buf c'.pos 16 t)
    (hrow : ∀ p ∈ recordTypeTable, p.1 ≠ t) : qDecode buf c = .error .UnsupportedCode := by
  obtain rfl := memRead_of_fieldIs ht
  rw [qDecode_of_name hname, if_neg (Nat.not_lt.mpr hle),
    recordType_enumeration.decode_of_no_row (by rwa [toNat_ofNat_memRead])]

/-- Q_DECODE behind a type that decodes: the class (R142). -/
theorem qDecode_of_type (hname : nameDecode buf c = .ok (n, c'))
    (hle : c'.pos + 16 ≤ 8 * buf.length) (ht : FieldIs buf c'.pos 16 t)
    (hrow : (t, qtype) ∈ recordTypeTable) :
    qDecode buf c =
      if 8 * buf.length < c'.pos + 32 then .error .Underrun
      else rclassDecode (BitVec.ofNat 16 (memRead buf (c'.pos + 16) 16)) >>= fun qclass =>
        .ok (⟨n, qtype, qclass⟩, Cursor.ofPos (c'.pos + 32)) := by
  obtain rfl := memRead_of_fieldIs ht
  rw [qDecode_of_name hname, if_neg (Nat.not_lt.mpr hle),
    recordType_enumeration.decode_of_mem hrow (toNat_ofNat_memRead _ _ _)]
  refine if_congr Iff.rfl rfl ?_
  cases rclassDecode (BitVec.ofNat 16 (memRead buf (c'.pos + 16) 16)) <;> rfl

/-- Behind a good type, a class code outside its table (R142). -/
theorem qDecode_of_class_unsupported (hname : nameDecode buf c = .ok (n, c'))
    (ht : FieldIs buf c'.pos 16 t) (hrow : (t, qtype) ∈ recordTypeTable)
    (hle : c'.pos + 32 ≤ 8 * buf.length) (hk : FieldIs buf (c'.pos + 16) 16 k)
    (hclass : ∀ p ∈ recordClassTable, p.1 ≠ k) : qDecode buf c = .error .UnsupportedCode := by
  obtain rfl := memRead_of_fieldIs hk
  rw [qDecode_of_type hname (by omega) ht hrow, if_neg (Nat.not_lt.mpr hle),
    recordClass_enumeration.decode_of_no_row (by rwa [toNat_ofNat_memRead])]
  rfl

/-- Q_DECODE past its checks: the type and the class have rows in their tables (R142). -/
theorem qDecode_of_rows (hname : nameDecode buf c = .ok (n, c'))
    (ht : FieldIs buf c'.pos 16 t) (hrow : (t, qtype) ∈ recordTypeTable)
    (hle : c'.pos + 32 ≤ 8 * buf.length) (hk : FieldIs buf (c'.pos + 16) 16 k)
    (hclass : (k, qclass) ∈ recordClassTable) :
    qDecode buf c = .ok (⟨n, qtype, qclass⟩, Cursor.ofPos (c'.pos + 32)) := by
  obtain rfl := memRead_of_fieldIs hk
  rw [qDecode_of_type hname (by omega) ht hrow, if_neg (Nat.not_lt.mpr hle),
    recordClass_enumeration.decode_of_mem hclass (toNat_ofNat_memRead _ _ _)]
  rfl

end

end Sys2Proof.Machine

namespace Sys2Proof.Proofs

open Machine Spec

/-- Settles O34: a question decodes exactly where its encoded bits stand, and only with good labels. -/
theorem questionsRoundTrip : Obligations.QuestionsRoundTrip := by
  refine ⟨fun q hq => ⟨questionBits q, qEncode_eq_questionBits hq, ?_⟩, fun b q k hd => ?_⟩
  · have hdecode := qDecode_of_holdsAt hq (holdsAt_pack (questionBits q))
    rwa [Nat.zero_add, Cursor.ofPos_bytes] at hdecode
  · obtain ⟨hlabels, hcursor, -⟩ := qDecode_ok hd
    rw [Cursor.pos_origin, Nat.zero_add, Cursor.ofPos_bytes] at hcursor
    obtain ⟨rfl, -⟩ := Cursor.mk.inj hcursor
    exact ⟨questionBits q, qEncode_eq_questionBits hlabels,
      pack_eq_take_of_holdsAt (holdsAt_of_qDecode hd) (questionBits_length q)⟩

/-- Settles O32: the bits emitted are those of the question's bytes, or the first offending label's error. -/
theorem qEncodeEmitsNameTypeClass : Obligations.QEncodeEmitsNameTypeClass := by
  intro s
  have hexec : exec .qEncode s = s.concludeOut .bits (qEncode s.args.q) := rfl
  refine ⟨fun hq => ⟨questionBytes_length _, ?_⟩, fun l hbad => ?_⟩
  · rw [hexec, qEncode_eq_questionBits hq, bitsOf_questionBytes, concludeOut_ok]
  · obtain ⟨hlong, hempty⟩ := qEncode_error hbad
    exact ⟨fun h => by rw [hexec, hlong h, concludeOut_error],
      fun h => by rw [hexec, hempty h, concludeOut_error]⟩

/-- Settles O33: the name, the type and the class in sequence, each read before it is looked up. -/
theorem qDecodeReadsNameTypeClass : Obligations.QDecodeReadsNameTypeClass := by
  intro s hc
  refine ⟨fun e hname => withCursor_conclude_of_error hc (qDecode_of_name_error hname),
    fun n c hname => ⟨fun hlt => ?_, fun t hle ht => ⟨fun hrow => ?_, fun qtype hrow =>
      ⟨fun hlt => ?_, fun k hle' hk => ⟨fun hclass => ?_, fun qclass hclass => ?_⟩⟩⟩⟩⟩
  · exact withCursor_conclude_of_error hc (qDecode_of_type_missing hname hlt)
  · exact withCursor_conclude_of_error hc (qDecode_of_type_unsupported hname hle ht hrow)
  · exact withCursor_conclude_of_error hc ((qDecode_of_type hname hle ht hrow).trans (if_pos hlt))
  · exact withCursor_conclude_of_error hc (qDecode_of_class_unsupported hname ht hrow hle' hk hclass)
  · exact withCursor_conclude_of_ok hc (qDecode_of_rows hname ht hrow hle' hk hclass) rfl

end Sys2Proof.Proofs
end

section
/-!
PROOFS. The family of the message: the layout of packed bits, MSG_BUILD by its checks and by its string, and
MSG_ENCODE and MSG_DECODE, each the other's inverse on messages that count their questions
(spec/45_message.md).
-/

namespace Sys2Proof.Machine

open Spec

/-! ## Packed bits -/

/-- The bits of whole bytes pack to these bytes (R154). -/
theorem pack_bitsOf (bytes : List Byte) : pack (bitsOf bytes) = bytes := by
  rw [bitsOf_eq_flatMap_bitsN]
  exact pack_eq_of_holdsAt (holdsAt_bytes bytes) (flatMap_bitsN_length bytes)

/-- Bit `7 - i` of a packed byte, within the bytes packed or behind them (R154). -/
theorem pack_getLsbD (bits : List Bool) (j : Nat) {i : Nat} (hi : i < 8) :
    ((pack bits)[j]?.getD 0).getLsbD (7 - i) = bits.getD (8 * j + i) false := by
  have hdiv : (8 * j + i) / 8 = j := by omega
  have hmod : (8 * j + i) % 8 = i := by omega
  rw [← streamBit_pack, ← bitAt_eq_streamBit, bitAt, hdiv, hmod]

/-! ## The bits and the bytes of a message -/

/-- A message's bits are 12 bytes and, for each question, its name's bytes and four more (R153). -/
theorem messageBits_length (m : Message) :
    (hdrEncode m.hdr ++ m.qs.flatMap questionBits).length
      = 8 * (12 + (m.qs.map fun q => encLen q.name + 4).sum) := by
  have hqs : (m.qs.flatMap questionBits).length = 8 * (m.qs.map fun q => encLen q.name + 4).sum := by
    simp only [List.length_flatMap, questionBits_length, List.sum_map_mul_left]
  rw [List.length_append, hdrEncode_length, hqs]
  omega

/-- The bits that MSG_ENCODE emits are those of the message's bytes (R66, R153). -/
theorem bitsOf_messageBytes (m : Message) :
    bitsOf (messageBytes m) = hdrEncode m.hdr ++ m.qs.flatMap questionBits := by
  have hqs : bitsOf (m.qs.flatMap questionBytes) = m.qs.flatMap questionBits :=
    List.flatMap_assoc.trans (congrArg m.qs.flatMap (funext bitsOf_questionBytes))
  rw [messageBytes, bitsOf_append, hqs, hdrEncode_eq_bitsOf]

theorem messageBytes_length (m : Message) :
    (messageBytes m).length = 12 + (m.qs.map fun q => encLen q.name + 4).sum := by
  have hlen := messageBits_length m
  rw [← bitsOf_messageBytes, bitsOf_eq_flatMap_bitsN, flatMap_bitsN_length] at hlen
  omega

/-- With good labels MSG_ENCODE answers the packed bits of the header and the questions (R153). -/
theorem msgEncode_eq_pack {m : Message} (h : ∀ q ∈ m.qs, labelsWellFormed q.name = true) :
    msgEncode m = .ok (pack (hdrEncode m.hdr ++ m.qs.flatMap questionBits)) :=
  bind_eq_ok.mpr ⟨_, msgBits_eq_questionBits h, rfl⟩

/-- Behind questions that encode, the first one that fails decides the error (R153, R171). -/
theorem emitQuestions_error (out : List Bool) {before : List Question} {q : Question}
    (after : List Question) {e : Err} (hbefore : ∀ q' ∈ before, labelsWellFormed q'.name = true)
    (hq : qEncode q = .error e) : emitQuestions out (before ++ q :: after) = .error e := by
  induction before generalizing out with
  | nil => rw [List.nil_append, emitQuestions_cons, hq]
  | cons b before ih =>
    obtain ⟨hb, hbefore⟩ := List.forall_mem_cons.mp hbefore
    rw [List.cons_append, emitQuestions_cons, qEncode_eq_questionBits hb]
    exact ih _ hbefore

theorem exec_msgEncode_of_error {s : State} {e : Err} (h : msgBits s.args.msg = .error e) :
    exec .msgEncode s = .next (s.raise e) := by
  rw [exec, execMsgEncode, h, concludeOut_error]

/-- A message with good labels encodes and decodes to itself when it counts its questions (R156 (a)). -/
theorem msgDecode_msgEncode {m : Message} (h : messageWellFormed m = true) :
    ∃ b, msgEncode m = .ok b ∧ msgDecode b = .ok m :=
  ⟨_, msgEncode_eq_pack ((messageWellFormed_iff m).mp h).2, msgDecode_of_holdsAt h (holdsAt_pack _)⟩

/-- What decodes starts with the encoding of what it decodes to (R156 (b)). -/
theorem msgEncode_of_msgDecode {b : List Byte} {m : Message} (h : msgDecode b = .ok m) :
    msgEncode m = .ok (b.take (12 + (m.qs.map fun q => encLen q.name + 4).sum)) := by
  rw [msgEncode_eq_pack ((messageWellFormed_iff m).mp (msgDecode_wellFormed h)).2,
    pack_eq_take_of_holdsAt (holdsAt_of_msgDecode h) (messageBits_length m)]

/-! ## Building a message -/

/-- MSG_BUILD as a transaction raises exactly the error of the build (R151). -/
theorem exec_msgBuild_raise_iff {s : State} {e : Err} :
    exec .msgBuild s = .next (s.raise e) ↔
      msgBuild s.args.id s.args.str s.args.rtype s.args.rclass = .error e := by
  rw [exec, execMsgBuild]
  cases msgBuild s.args.id s.args.str s.args.rtype s.args.rclass <;>
    simp [bind, Except.bind, pure, Except.pure, State.raise, State.deliver]

theorem exec_msgBuild_of_ok {s : State} {m : Message}
    (h : msgBuild s.args.id s.args.str s.args.rtype s.args.rclass = .ok m) :
    exec .msgBuild s = .next (s.deliver (.ok (.msg m))) := by
  rw [exec, execMsgBuild, h]
  rfl

/-- Check 2 of MSG_BUILD never answers the error of check 1 (R151). -/
theorem checkLabels_ne_nameTooLong (n : Name) : checkLabels n ≠ .error .NameTooLong := by
  induction n with
  | nil => nofun
  | cons l n ih =>
    rw [checkLabels]
    split_ifs
    · nofun
    · nofun
    · exact ih

/-- MSG_BUILD of a name within the total limit fails as the label check does (R151). -/
theorem msgBuild_of_label_error {str : List Byte} {e : Err} (id : U16) (t : RecordType)
    (k : RecordClass) (hlen : encLen (nameSplit str) ≤ 255)
    (hcheck : checkLabels (nameSplit str) = .error e) : msgBuild id str t k = .error e := by
  rw [msgBuild_eq, if_neg (Nat.not_lt.mpr hlen), hcheck]

/-- `NameTooLong` is the error of the total limit and of nothing else (R151). -/
theorem msgBuild_nameTooLong_iff {id : U16} {str : List Byte} {t : RecordType} {k : RecordClass} :
    msgBuild id str t k = .error .NameTooLong ↔ 255 < encLen (nameSplit str) := by
  rw [msgBuild_eq]
  refine ⟨fun h => ?_, fun h => if_pos h⟩
  by_contra hlen
  rw [if_neg hlen] at h
  split at h
  · next hcheck => cases h; exact checkLabels_ne_nameTooLong _ hcheck
  · cases h

/-- With no label too long, an empty one is the first offending label (R151). -/
theorem checkLabels_of_mem_nil {n : Name} (hnil : [] ∈ n) (hle : ∀ l ∈ n, l.length ≤ 63) :
    checkLabels n = .error .EmptyLabel := by
  induction n with
  | nil => exact absurd hnil List.not_mem_nil
  | cons l n ih =>
    obtain ⟨hl, hn⟩ := List.forall_mem_cons.mp hle
    rw [checkLabels, Config.labelMax, if_neg (Nat.not_lt.mpr hl)]
    split_ifs with h0
    · rfl
    · obtain rfl | hnil := List.mem_cons.mp hnil
      · exact absurd rfl h0
      · exact ih hnil hn

/-! ## The split of a string -/

/-- Each dot, like the front of the string, stands for one length byte of the encoding (R152). -/
theorem encLen_splitParts (str : List Byte) (part : Label) :
    encLen (splitParts str part) = part.length + str.length + 2 := by
  induction str generalizing part with
  | nil => rw [splitParts, encLen_cons, encLen_nil, List.length_nil]; omega
  | cons b str ih =>
    rw [splitParts]
    split_ifs
    · rw [encLen_cons, ih, List.length_cons, List.length_nil]; omega
    · rw [ih, List.length_append, List.length_cons, List.length_cons, List.length_nil]; omega

theorem encLen_nameSplit {str : List Byte} (h : str ≠ []) :
    encLen (nameSplit str) = str.length + 2 := by
  rw [nameSplit_of_ne_nil h, encLen_splitParts, List.length_nil, Nat.zero_add]

/-- A label and the root label are part of the name's encoding. -/
theorem length_add_two_le_encLen {n : Name} {l : Label} (h : l ∈ n) : l.length + 2 ≤ encLen n := by
  have hsum := List.le_sum_of_mem (List.mem_map_of_mem (f := fun l => 1 + l.length) h)
  rw [encLen]
  omega

/-- The total limit, by the length of the string (R152). -/
theorem encLen_nameSplit_gt_iff (str : List Byte) :
    255 < encLen (nameSplit str) ↔ 254 ≤ str.length := by
  by_cases h : str = []
  · rw [h]; decide
  · rw [encLen_nameSplit h]; omega

/-- A string without a dot is one part (R131). -/
theorem splitParts_of_dot_not_mem {str : List Byte} (part : Label) (h : (0x2E : Byte) ∉ str) :
    splitParts str part = [part ++ str] := by
  induction str generalizing part with
  | nil => rw [splitParts, List.append_nil]
  | cons b str ih =>
    obtain ⟨hb, hstr⟩ := List.ne_and_not_mem_of_not_mem_cons h
    rw [splitParts, if_neg (Ne.symm hb), ih _ hstr, List.append_assoc, List.singleton_append]

theorem nameSplit_of_dot_not_mem {str : List Byte} (hne : str ≠ []) (h : (0x2E : Byte) ∉ str) :
    nameSplit str = [str] := by
  rw [nameSplit_of_ne_nil hne, splitParts_of_dot_not_mem [] h, List.nil_append]

/-- A dot cuts a string in two that are split on their own (R131). -/
theorem splitParts_append_dot (a b : List Byte) (part : Label) :
    splitParts (a ++ 0x2E :: b) part = splitParts a part ++ splitParts b [] := by
  induction a generalizing part with
  | nil => rfl
  | cons x a ih =>
    rw [List.cons_append, splitParts, splitParts]
    split_ifs
    · rw [ih, List.cons_append]
    · exact ih _

/-- A dot at an end of the string or behind another cuts off an empty part (R152). -/
theorem nil_mem_nameSplit {a b str : List Byte}
    (h : str = 0x2E :: b ∨ str = a ++ [0x2E] ∨ str = a ++ 0x2E :: 0x2E :: b) :
    [] ∈ nameSplit str := by
  have hne : str ≠ [] := by
    obtain rfl | rfl | rfl := h <;> simp
  have hfront (x : List Byte) : [] ∈ splitParts (0x2E :: x) [] := List.mem_cons_self
  rw [nameSplit_of_ne_nil hne]
  obtain rfl | rfl | rfl := h
  · exact hfront b
  · rw [splitParts_append_dot]
    exact List.mem_append_right _ List.mem_cons_self
  · rw [splitParts_append_dot]
    exact List.mem_append_right _ (hfront b)

/-! ## Decoding a message -/

/-- `qs` decode one behind the other, the `j`-th at `cur j` (R155). -/
def DecodeInRow (buf : List Byte) (cur : Nat → Cursor) (qs : List Question) : Prop :=
  ∀ j, j < qs.length → ∃ q, qs[j]? = some q ∧ qDecode buf (cur j) = .ok (q, cur (j + 1))

theorem decodeInRow_cons {buf : List Byte} {cur : Nat → Cursor} {q : Question} {qs : List Question}
    (h : DecodeInRow buf cur (q :: qs)) :
    qDecode buf (cur 0) = .ok (q, cur 1) ∧ DecodeInRow buf (fun j => cur (j + 1)) qs := by
  refine ⟨?_, fun j hj => h (j + 1) (Nat.succ_lt_succ hj)⟩
  obtain ⟨q', hq', hdecode⟩ := h 0 (Nat.zero_lt_succ _)
  cases hq'
  exact hdecode

/-- Reading more questions than decode in a row goes on where the last of the row ended (R155). -/
theorem readQuestions_of_row {buf : List Byte} {cur : Nat → Cursor} {qs : List Question}
    (h : DecodeInRow buf cur qs) (k : Nat) :
    readQuestions buf (qs.length + k) (cur 0) =
      (readQuestions buf k (cur qs.length)).map (qs ++ ·) := by
  induction qs generalizing cur with
  | nil =>
    rw [List.length_nil, Nat.zero_add]
    cases readQuestions buf k (cur 0) <;> rfl
  | cons q qs ih =>
    obtain ⟨hq, hrow⟩ := decodeInRow_cons h
    rw [List.length_cons, Nat.add_right_comm, readQuestions_succ, hq]
    simp only [ih hrow]
    cases readQuestions buf k (cur (qs.length + 1)) <;> rfl

/-- With QDCOUNT questions decoded behind the header, the message is theirs (R155). -/
theorem msgDecode_of_row {buf : List Byte} {cur : Nat → Cursor} {h : Header} {qs : List Question}
    (hhdr : hdrDecode buf Cursor.origin = .ok (h, cur 0)) (hrow : DecodeInRow buf cur qs)
    (hcount : qs.length = h.qdcount.toNat) : msgDecode buf = .ok ⟨h, qs⟩ := by
  have hread := readQuestions_of_row hrow 0
  rw [Nat.add_zero, readQuestions, Except.map, List.append_nil] at hread
  rw [msgDecode_eq, hhdr]
  simp only [← hcount, hread]

/-- With fewer than QDCOUNT decoded, the error of the next is the message's (R155). -/
theorem msgDecode_of_row_error {buf : List Byte} {cur : Nat → Cursor} {h : Header}
    {qs : List Question} {e : Err} (hhdr : hdrDecode buf Cursor.origin = .ok (h, cur 0))
    (hrow : DecodeInRow buf cur qs) (hcount : qs.length < h.qdcount.toNat)
    (hnext : qDecode buf (cur qs.length) = .error e) : msgDecode buf = .error e := by
  obtain ⟨k, hk⟩ := Nat.exists_eq_add_of_lt hcount
  have hread := readQuestions_of_row hrow (k + 1)
  rw [readQuestions_succ, hnext] at hread
  rw [msgDecode_eq, hhdr]
  simp only [hk, Nat.add_assoc, hread, Except.map]

theorem exec_msgDecode_of_ok {s : State} {m : Message} (h : msgDecode s.args.buf = .ok m) :
    exec .msgDecode s = .next (s.deliver (.ok (.msg m))) := by
  rw [exec, execMsgDecode, h]
  rfl

theorem exec_msgDecode_of_error {s : State} {e : Err} (h : msgDecode s.args.buf = .error e) :
    exec .msgDecode s = .next (s.raise e) := by
  rw [exec, execMsgDecode, h]
  rfl

end Sys2Proof.Machine

namespace Sys2Proof.Proofs

open Machine Spec

/-- Settles O39: a message decodes exactly where its encoded bits stand, and only when it counts its
questions. -/
theorem messagesRoundTrip : Obligations.MessagesRoundTrip := by
  refine ⟨fun _ => msgDecode_msgEncode,
    fun id str t k m hbuild => msgDecode_msgEncode (msgBuild_wellFormed hbuild),
    fun b m => msgEncode_of_msgDecode,
    fun m hlabels hcount => ⟨_, msgEncode_eq_pack hlabels, fun m' hd heq => ?_⟩⟩
  exact hcount ((messageWellFormed_iff m).mp (heq ▸ msgDecode_wellFormed hd)).1

/-- Settles O11: packed bits are the stream bits of their bytes, and those of whole bytes fill them. -/
theorem packLayout : Obligations.PackLayout := by
  refine ⟨fun bits => ⟨pack_length bits, fun j i _ hi => pack_getLsbD bits j hi⟩, rfl, pack_bitsOf,
    fun m out hout => ?_⟩
  obtain ⟨k, hk⟩ := msgBits_length hout
  exact ⟨12 + k, hk⟩

/-- Settles O35: the total limit, then the label check, then the one message left. -/
theorem msgBuildValidatesThenBuilds : Obligations.MsgBuildValidatesThenBuilds := by
  refine fun s => ⟨fun hlen => exec_msgBuild_raise_iff.mpr (msgBuild_nameTooLong_iff.mpr hlen),
    fun hlen => ⟨?_, fun hlabels => exec_msgBuild_of_ok (msgBuild_ok_iff.mpr ⟨hlen, hlabels, rfl⟩)⟩⟩
  rintro l ⟨before, after, hname, hbefore, -⟩
  obtain ⟨hlong, hempty⟩ := checkLabels_error before l after hbefore
  rw [← hname] at hlong hempty
  exact ⟨fun h => exec_msgBuild_raise_iff.mpr (msgBuild_of_label_error _ _ _ hlen (hlong h)),
    fun h => exec_msgBuild_raise_iff.mpr (msgBuild_of_label_error _ _ _ hlen (hempty h))⟩

/-- Settles O36: the encoded length of the split string decides the total limit, and where its dots stand
the labels. -/
theorem msgBuildBoundaries : Obligations.MsgBuildBoundaries := by
  intro s
  have hlimit (h : s.args.str.length < 254) : encLen (nameSplit s.args.str) ≤ 255 :=
    Nat.le_of_not_lt (mt (encLen_nameSplit_gt_iff _).mp (Nat.not_le.mpr h))
  refine ⟨encLen_nameSplit, ?_, fun hdot h64 h253 => ?_, fun hdot h1 h63 => ?_, fun hnil => ?_,
    fun h63 ⟨a, b, hdots⟩ => ?_⟩
  · rw [exec_msgBuild_raise_iff, msgBuild_nameTooLong_iff, encLen_nameSplit_gt_iff]
  · have hsplit := nameSplit_of_dot_not_mem (List.ne_nil_of_length_pos (by omega)) hdot
    refine exec_msgBuild_raise_iff.mpr (msgBuild_of_label_error _ _ _ (hlimit (by omega)) ?_)
    rw [hsplit]
    exact (checkLabels_error [] _ [] rfl).1 h64
  · have hsplit := nameSplit_of_dot_not_mem (List.ne_nil_of_length_pos h1) hdot
    have hlabel := (labelWellFormed_iff _).mpr ⟨h1, h63⟩
    refine exec_msgBuild_of_ok (msgBuild_ok_iff.mpr ⟨hlimit (by omega), ?_, by rw [hsplit]⟩)
    rw [hsplit]
    exact (labelsWellFormed_cons _ _).mpr ⟨hlabel, rfl⟩
  · exact exec_msgBuild_of_ok (by rw [hnil]; rfl)
  · refine exec_msgBuild_raise_iff.mpr (msgBuild_of_label_error _ _ _ (hlimit (by omega))
      (checkLabels_of_mem_nil (nil_mem_nameSplit hdots) fun l hl => ?_))
    have hne : s.args.str ≠ [] := by
      intro hnil
      rw [hnil] at hl
      exact absurd hl List.not_mem_nil
    have hlen := length_add_two_le_encLen hl
    rw [encLen_nameSplit hne] at hlen
    omega

/-- Settles O37: the bits emitted are those of the message's bytes, or the first offending label's error. -/
theorem msgEncodeConcatenates : Obligations.MsgEncodeConcatenates := by
  refine fun s => ⟨fun hlabels => ⟨messageBytes_length _, ?_⟩,
    fun before q after l hqs hbefore hbad => ?_⟩
  · rw [exec, execMsgEncode, msgBits_eq_questionBits hlabels, ← bitsOf_messageBytes, concludeOut_ok,
      pack_bitsOf]
  · obtain ⟨hlong, hempty⟩ := qEncode_error hbad
    have hfirst {e : Err} (hq : qEncode q = .error e) : exec .msgEncode s = .next (s.raise e) := by
      refine exec_msgEncode_of_error ?_
      rw [msgBits, hqs]
      exact emitQuestions_error _ after hbefore hq
    exact ⟨fun h => hfirst (hlong h), fun h => hfirst (hempty h)⟩

/-- Settles O38: the header, then the questions in a row, the first failure being the result. -/
theorem msgDecodeReadsQdcountQuestions : Obligations.MsgDecodeReadsQdcountQuestions := by
  refine fun s => ⟨fun e hhdr => exec_msgDecode_of_error (by rw [msgDecode_eq, hhdr]),
    fun h qs cs hhdr _ hrow => ⟨fun hcount => exec_msgDecode_of_ok ?_, fun hcount e hnext =>
      exec_msgDecode_of_error ?_⟩⟩
  · exact msgDecode_of_row (cur := fun j => cs[j]?.getD Cursor.origin) hhdr hrow hcount
  · exact msgDecode_of_row_error (cur := fun j => cs[j]?.getD Cursor.origin) hhdr hrow hcount hnext

end Sys2Proof.Proofs
end

section
/-!
PROOFS. The family of the exceptions: which errors an operation can raise, what raising one leaves behind, and
that a step is refused exactly outside the contract (spec/60_exceptions.md).
-/

namespace Sys2Proof.Machine

open Spec

/-! ## The errors of the parts of an operation -/

/-- Every error that `x` can end with is one of `es`. -/
def FailsIn {α : Type} (es : List Err) (x : Except Err α) : Prop :=
  ∀ e, x = .error e → e ∈ es

theorem failsIn_error {α : Type} {es : List Err} {e : Err} (h : e ∈ es) :
    FailsIn es (.error e : Except Err α) :=
  fun _ heq => Except.error.inj heq ▸ h

theorem FailsIn.mono {α : Type} {es es' : List Err} {x : Except Err α} (h : FailsIn es x)
    (hsub : ∀ e ∈ es, e ∈ es') : FailsIn es' x :=
  fun e he => hsub e (h e he)

/-- A sequence fails as its first part does, or as the rest does on what the first part gave (R171). -/
theorem FailsIn.bind {α β : Type} {es : List Err} {x : Except Err α} {f : α → Except Err β}
    (hx : FailsIn es x) (hf : ∀ a, FailsIn es (f a)) : FailsIn es (x >>= f) := by
  cases x with
  | error e => exact failsIn_error (hx e rfl)
  | ok a => exact hf a

/-! The reads and the decoders. -/

section
variable {buf : List Byte} {c : Cursor}

theorem take_failsIn {n : Nat} : FailsIn [.Underrun] (take buf c n) := by
  rw [take]
  split_ifs
  · exact failsIn_error (by decide)
  · nofun

theorem takeBit_failsIn : FailsIn [.Underrun] (takeBit buf c) :=
  take_failsIn.bind fun _ => nofun

theorem takeNibble_failsIn : FailsIn [.Underrun] (takeNibble buf c) :=
  take_failsIn.bind fun _ => nofun

theorem takeU16_failsIn : FailsIn [.Underrun] (takeU16 buf c) :=
  take_failsIn.bind fun _ => nofun

theorem takeByte_failsIn : FailsIn [.Underrun] (takeByte buf c) :=
  take_failsIn.bind fun _ => nofun

/-- A code without a row is the only failure of an enumeration's decoder (R74). -/
theorem Enumeration.decode_failsIn {α : Type} {w : Nat} {table : List (Nat × α)}
    {encode : α → BitVec w} {decode : BitVec w → Except Err α}
    (h : Enumeration table encode decode) (k : BitVec w) : FailsIn [.UnsupportedCode] (decode k) := by
  obtain ⟨v, -, hok⟩ | ⟨-, herr⟩ := h.decode_cases k
  · rw [hok]; nofun
  · rw [herr]; exact failsIn_error (by decide)

/-- The checks of HDR_DECODE in their order, and nothing else, can fail (R125). -/
theorem hdrDecode_failsIn :
    FailsIn [.Truncated, .MalformedReserved, .UnsupportedCode] (hdrDecode buf c) := by
  by_cases hle : c.pos + 96 ≤ 8 * buf.length
  · by_cases hz : memRead buf (c.pos + 25) 3 = 0
    · by_cases hcode : 3 ≤ memRead buf (c.pos + 17) 4 ∨ 6 ≤ memRead buf (c.pos + 28) 4
      · rw [hdrDecode_of_unsupported hle hz hcode]; exact failsIn_error (by decide)
      · obtain ⟨h, c', hd⟩ := (exists_hdrDecode_ok_iff hle).mpr ⟨hz, by omega, by omega⟩
        rw [hd]; nofun
    · rw [hdrDecode_of_reserved hle hz]; exact failsIn_error (by decide)
  · rw [hdrDecode_of_lt (Nat.lt_of_not_le hle)]; exact failsIn_error (by decide)

theorem readLabel_failsIn {k : Nat} : FailsIn [.Underrun] (readLabel buf k c) := by
  induction k generalizing c with
  | zero => nofun
  | succ k ih => exact takeByte_failsIn.bind fun _ => ih.bind fun _ => nofun

/-- A turn of NAME_DECODE's loop finds too few bits or a reserved length byte, or goes on (R134). -/
theorem readLabels_failsIn {turns : Nat} {labels : Name} {p : Nat} :
    FailsIn [.Underrun, .CompressionUnsupported] (readLabels buf turns labels (Cursor.ofPos p)) := by
  induction turns generalizing labels p with
  | zero => exact failsIn_error (by decide)
  | succ turns ih =>
    rw [readLabels_succ]
    split_ifs
    · exact failsIn_error (by decide)
    · nofun
    · exact failsIn_error (by decide)
    · exact failsIn_error (by decide)
    · exact ih

theorem nameDecode_failsIn : FailsIn [.Underrun, .CompressionUnsupported] (nameDecode buf c) := by
  rw [← nameDecode_ofPos]
  exact readLabels_failsIn

/-- Q_DECODE fails in its name, in a read behind it, or in one of the two codes (R142). -/
theorem qDecode_failsIn :
    FailsIn [.Underrun, .CompressionUnsupported, .UnsupportedCode] (qDecode buf c) :=
  (nameDecode_failsIn.mono (by decide)).bind fun _ =>
    (takeU16_failsIn.mono (by decide)).bind fun _ =>
    ((recordType_enumeration.decode_failsIn _).mono (by decide)).bind fun _ =>
    (takeU16_failsIn.mono (by decide)).bind fun _ =>
    ((recordClass_enumeration.decode_failsIn _).mono (by decide)).bind fun _ => nofun

theorem readQuestions_failsIn {k : Nat} :
    FailsIn [.Underrun, .CompressionUnsupported, .UnsupportedCode] (readQuestions buf k c) := by
  induction k generalizing c with
  | zero => nofun
  | succ k ih => exact qDecode_failsIn.bind fun _ => ih.bind fun _ => nofun

/-- MSG_DECODE fails as its header does or as a question does (R155). -/
theorem msgDecode_failsIn :
    FailsIn [.Underrun, .Truncated, .MalformedReserved, .UnsupportedCode, .CompressionUnsupported]
      (msgDecode buf) :=
  (hdrDecode_failsIn.mono (by decide)).bind fun _ =>
    (readQuestions_failsIn.mono (by decide)).bind fun _ => nofun

end

/-! The encoders and MSG_BUILD. -/

theorem emitLabels_failsIn {out : List Bool} {n : Name} :
    FailsIn [.LabelTooLong, .EmptyLabel] (emitLabels out n) := by
  induction n generalizing out with
  | nil => nofun
  | cons l n ih =>
    rw [emitLabels]
    split_ifs
    · exact failsIn_error (by decide)
    · exact failsIn_error (by decide)
    · exact ih

theorem qEncode_failsIn {q : Question} : FailsIn [.LabelTooLong, .EmptyLabel] (qEncode q) :=
  emitLabels_failsIn.bind fun _ => nofun

theorem emitQuestions_failsIn {out : List Bool} {qs : List Question} :
    FailsIn [.LabelTooLong, .EmptyLabel] (emitQuestions out qs) := by
  induction qs generalizing out with
  | nil => nofun
  | cons q qs ih => exact qEncode_failsIn.bind fun _ => ih

theorem checkLabels_failsIn {n : Name} : FailsIn [.LabelTooLong, .EmptyLabel] (checkLabels n) := by
  induction n with
  | nil => nofun
  | cons l n ih =>
    rw [checkLabels]
    split_ifs
    · exact failsIn_error (by decide)
    · exact failsIn_error (by decide)
    · exact ih

theorem msgBuild_failsIn {id : U16} {str : List Byte} {t : RecordType} {k : RecordClass} :
    FailsIn [.LabelTooLong, .NameTooLong, .EmptyLabel] (msgBuild id str t k) := by
  rw [msgBuild_eq]
  split_ifs
  · exact failsIn_error (by decide)
  · split
    · next hcheck => exact failsIn_error (checkLabels_failsIn.mono (by decide) _ hcheck)
    · nofun

/-! ## How an instruction ends -/

/-- The errors an instruction can raise: R160's table read by operation and, for the length bytes, R68. -/
def errorsOf : Instr → List Err
  | .take | .takeBit | .takeNibble | .takeU16 | .lengthByteLabel _ => [.Underrun]
  | .rtypeDecode | .rclassDecode | .opcodeDecode | .rcodeDecode => [.UnsupportedCode]
  | .hdrDecode => [.Truncated, .MalformedReserved, .UnsupportedCode]
  | .nameDecode => [.Underrun, .CompressionUnsupported]
  | .qDecode => [.Underrun, .CompressionUnsupported, .UnsupportedCode]
  | .msgDecode =>
    [.Underrun, .Truncated, .MalformedReserved, .UnsupportedCode, .CompressionUnsupported]
  | .nameEncode | .qEncode | .msgEncode => [.LabelTooLong, .EmptyLabel]
  | .msgBuild => [.LabelTooLong, .NameTooLong, .EmptyLabel]
  | .lengthByteReserved01 _ | .lengthByteReserved10 _ | .lengthByteReserved11 _ =>
    [.CompressionUnsupported]
  | _ => []

theorem mem_errorsOf_iff (e : Err) :
    ∀ i ∈ opselTable.map Prod.snd, e ∈ errorsOf i ↔ i ∈ raisedBy e := by
  cases e <;> decide

/-- `s'` is `s` with a value delivered, `OUT` perhaps rewritten, or with one of `es` raised and nothing else
changed (R170). -/
def Ends (es : List Err) (s s' : State) : Prop :=
  (∃ out v, s' = (s.setOut out).deliver (.ok v)) ∨ ∃ e ∈ es, s' = s.raise e

theorem ends_conclude {es : List Err} {s s' : State} {r : Except Err Result}
    (h : s.conclude r = .next s') (hr : FailsIn es r) : Ends es s s' := by
  obtain ⟨v, -, hs⟩ | ⟨e, he, hs⟩ := conclude_cases s r
  · cases hs.symm.trans h; exact .inl ⟨s.out, v, rfl⟩
  · cases hs.symm.trans h; exact .inr ⟨e, hr e he, rfl⟩

theorem ends_concludeOut {es : List Err} {s s' : State} {f : List Bool → Result}
    {r : Except Err (List Bool)} (h : s.concludeOut f r = .next s') (hr : FailsIn es r) :
    Ends es s s' := by
  obtain ⟨out, -, hs⟩ | ⟨e, he, hs⟩ := concludeOut_cases s f r
  · cases hs.symm.trans h; exact .inl ⟨out, f out, rfl⟩
  · cases hs.symm.trans h; exact .inr ⟨e, hr e he, rfl⟩

/-- A transaction that cannot fail ends with its value. -/
theorem ends_ok {es : List Err} {s s' : State} {v : Result} (h : s.conclude (.ok v) = .next s') :
    Ends es s s' :=
  ends_conclude h nofun

/-- An encoding transaction that cannot fail ends with its bits. -/
theorem ends_out_ok {es : List Err} {s s' : State} {f : List Bool → Result} {bits : List Bool}
    (h : s.concludeOut f (.ok bits) = .next s') : Ends es s s' :=
  ends_concludeOut h nofun

/-- An instruction that takes a step delivers a value or raises one of its errors (R160, R170). -/
theorem exec_ends {i : Instr} {s s' : State} (h : exec i s = .next s') : Ends (errorsOf i) s s' := by
  cases i
  case take =>
    exact ends_conclude (withCursor_next (withWidth_next h).2).2 (take_failsIn.bind fun _ => nofun)
  case takeBit => exact ends_conclude (withCursor_next h).2 (takeBit_failsIn.bind fun _ => nofun)
  case takeNibble => exact ends_conclude (withCursor_next h).2 (takeNibble_failsIn.bind fun _ => nofun)
  case takeU16 => exact ends_conclude (withCursor_next h).2 (takeU16_failsIn.bind fun _ => nofun)
  case hdrDecode => exact ends_conclude (withCursor_next h).2 (hdrDecode_failsIn.bind fun _ => nofun)
  case nameDecode => exact ends_conclude (withCursor_next h).2 (nameDecode_failsIn.bind fun _ => nofun)
  case qDecode => exact ends_conclude (withCursor_next h).2 (qDecode_failsIn.bind fun _ => nofun)
  case lengthByteLabel =>
    exact ends_conclude (withCursor_next h).2 (readLabel_failsIn.bind fun _ => nofun)
  case lengthByteRoot => exact ends_ok (withCursor_next h).2
  case rtypeDecode =>
    exact ends_conclude h ((recordType_enumeration.decode_failsIn _).bind fun _ => nofun)
  case rclassDecode =>
    exact ends_conclude h ((recordClass_enumeration.decode_failsIn _).bind fun _ => nofun)
  case opcodeDecode => exact ends_conclude h ((opcode_enumeration.decode_failsIn _).bind fun _ => nofun)
  case rcodeDecode =>
    exact ends_conclude h ((responseCode_enumeration.decode_failsIn _).bind fun _ => nofun)
  case msgBuild => exact ends_conclude h (msgBuild_failsIn.bind fun _ => nofun)
  case msgDecode => exact ends_conclude h (msgDecode_failsIn.bind fun _ => nofun)
  case nameEncode => exact ends_concludeOut h emitLabels_failsIn
  case qEncode => exact ends_concludeOut h qEncode_failsIn
  case msgEncode => exact ends_concludeOut h emitQuestions_failsIn
  case rtypeBits | rclassBits | opcodeBits | rcodeBits | hdrEncode => exact ends_out_ok h
  case lengthByteReserved01 | lengthByteReserved10 | lengthByteReserved11 =>
    cases h; exact .inr ⟨_, List.mem_singleton_self _, rfl⟩
  -- The codes' encoders, HDR_NEW, NAME_SPLIT, the elements and the codes cannot fail.
  all_goals exact ends_ok h

/-- Where the response delivered is an error, the instruction has raised that error (R170). -/
theorem exec_raises {i : Instr} {s s' : State} {e : Err} (h : exec i s = .next s')
    (he : s'.results = s.results ++ [.err e]) : e ∈ errorsOf i ∧ s' = s.raise e := by
  obtain ⟨out, v, rfl⟩ | ⟨e', hmem, rfl⟩ := exec_ends h
  · cases List.append_cancel_left he
  · cases List.append_cancel_left he
    exact ⟨hmem, rfl⟩

/-! ## Operands that raise each error -/

/-- A name of one label as the operand of the four operations that take one. -/
def labelOperands (l : Label) : Operands :=
  { Operands.initial with
    str := l, name := [l], q := ⟨[l], .A, .IN⟩, msg := ⟨hdrNew 0, [⟨[l], .A, .IN⟩]⟩ }

/-- Operands on which every operation of an error's row of R160's table raises it. The buffers are, for
`Underrun` and `CompressionUnsupported`, a header that counts a question, with nothing and with a
pointer behind it at the cursor; for `Truncated`, empty; for `MalformedReserved`, all ones; for
`UnsupportedCode`, a header with the opcode 15, which read as a question is the root and the type
0x0078. -/
def failing : Err → Operands
  | .Underrun => { Operands.initial with buf := [0, 0, 1, 0, 0, 1, 0, 0, 0, 0, 0, 0], cur := ⟨12, 0⟩ }
  | .Truncated => Operands.initial
  | .MalformedReserved => { Operands.initial with buf := List.replicate 12 0xFF }
  | .UnsupportedCode =>
    { Operands.initial with buf := [0, 0, 0x78, 0, 0, 0, 0, 0, 0, 0, 0, 0], code16 := 0, code4 := 15 }
  | .CompressionUnsupported =>
    { Operands.initial with buf := [0, 0, 1, 0, 0, 1, 0, 0, 0, 0, 0, 0, 0xC0], cur := ⟨12, 0⟩ }
  | .LabelTooLong => labelOperands (List.replicate 64 0x78)
  | .NameTooLong => { Operands.initial with str := List.replicate 254 0x78 }
  | .EmptyLabel => { labelOperands [] with str := [0x2E] }

/-- A state with the operands of `failing`. -/
def failingState (e : Err) : State :=
  { State.reset with args := failing e }

/-- MSG_BUILD is the one operation that raises `NameTooLong`: its string has 254 bytes. -/
theorem exec_failing_nameTooLong :
    exec .msgBuild (failingState .NameTooLong) = .next ((failingState .NameTooLong).raise .NameTooLong) :=
  exec_msgBuild_raise_iff.mpr <| msgBuild_nameTooLong_iff.mpr <|
    (encLen_nameSplit_gt_iff _).mpr List.length_replicate.ge

/-- The model run on the operands, for each pair of an error and an operation (R160). -/
theorem exec_failing (e : Err) :
    ∀ i ∈ raisedBy e, exec i (failingState e) = .next ((failingState e).raise e) := by
  intro i hi
  cases e
  case NameTooLong => cases List.mem_singleton.mp hi; exact exec_failing_nameTooLong
  all_goals fin_cases hi <;> rfl

/-! ## The contract -/

/-- An instruction that takes a step has operands within its contract (R95, R175). -/
theorem operandsInContract_of_exec_next {i : Instr} {s s' : State} (h : exec i s = .next s') :
    OperandsInContract i s.args := by
  refine ⟨fun hcursor => ?_, fun hwidth => ?_⟩
  · cases i
    case take => exact (withCursor_next (withWidth_next h).2).1
    case takeBit | takeNibble | takeU16 | hdrDecode | nameDecode | qDecode | lengthByteRoot
        | lengthByteLabel => exact (withCursor_next h).1
    all_goals cases hcursor
  · obtain rfl : i = .take := of_decide_eq_true hwidth
    exact (withWidth_next h).1

theorem exec_next_iff {i : Instr} {s : State} :
    (∃ s', exec i s = .next s') ↔ OperandsInContract i s.args :=
  ⟨fun ⟨_, h⟩ => operandsInContract_of_exec_next h, exec_next_of_inContract⟩

/-- A transaction that takes a step is within the block's contract (R81, R175). -/
theorem inContract_of_step_next {s s' : State} {t : Transaction} {rest : List Transaction}
    (hp : s.pending = t :: rest) (h : step s = .next s') : InContract t := by
  obtain ⟨i, hi, hx⟩ | ⟨e, he, -⟩ := step_cases hp h
  · simp only [InContract, hi]
    exact operandsInContract_of_exec_next hx
  · simp only [InContract, he]

theorem step_next_iff {s : State} {t : Transaction} {rest : List Transaction}
    (hp : s.pending = t :: rest) : (∃ s', step s = .next s') ↔ InContract t :=
  ⟨fun ⟨_, h⟩ => inContract_of_step_next hp h, step_next_of_inContract hp⟩

/-- There is no fault: what takes no step is refused. -/
theorem refused_of_not_next {x : Step} (h : ¬ ∃ s', x = .next s') : ∃ r, x = .refused r := by
  cases x with
  | next s' => exact absurd ⟨s', rfl⟩ h
  | fault r => cases r
  | refused r => exact ⟨r, rfl⟩

theorem exec_refused {i : Instr} {s : State} (h : ¬ OperandsInContract i s.args) :
    ∃ r, exec i s = .refused r :=
  refused_of_not_next (mt exec_next_iff.mp h)

/-- The OPSEL values of R81 name no operation. -/
theorem decode_unknownOpsel :
    ∀ k : BitVec 5, k.toNat = 0 ∨ 0x1C ≤ k.toNat → decode (.op k) = .error .unknownOpsel := by
  decide

/-- The seven operations that take a cursor (R78). -/
theorem usesCursor_of_mem : ∀ i ∈ [Instr.take, .takeBit, .takeNibble, .takeU16, .hdrDecode, .nameDecode,
    .qDecode], usesCursor i = true := by decide

end Sys2Proof.Machine

namespace Sys2Proof.Proofs

open Machine Spec

/-- Settles O2: a response that is an error is one the instruction has raised, which changes nothing else. -/
theorem anErrorLeavesNothingElse : Obligations.AnErrorLeavesNothingElse :=
  fun _ _ _ _ h he => (exec_raises h he).2

/-- Settles O17: the operand checks are what a step has passed, and all that can stop one. -/
theorem nothingWithinTheContractStops : Obligations.NothingWithinTheContractStops :=
  ⟨fun _ _ => exec_next_iff, fun _ _ _ => step_next_iff⟩

/-- Settles O16: each of the three requests is outside the contract, so it takes no step. -/
theorem whatIsOutsideTheContractIsRefused : Obligations.WhatIsOutsideTheContractIsRefused := by
  refine ⟨fun s hn => exec_refused fun hcontract => ?_,
    fun s hcur i hi => exec_refused fun hcontract => ?_, fun s t rest k hp hk hopsel => ?_⟩
  · obtain ⟨-, hwidth⟩ := hcontract
    obtain ⟨hlo, hhi⟩ := hwidth rfl
    omega
  · obtain ⟨hcursor, -⟩ := hcontract
    obtain ⟨hbit, hpos⟩ := hcursor (usesCursor_of_mem i hi)
    omega
  · refine refused_of_not_next (mt (step_next_iff hp).mp ?_)
    rw [InContract, hk, decode_unknownOpsel k hopsel]
    exact id

/-- Settles O42: the errors of each operation's parts are those of the table, and each is raised on some
operands. -/
theorem operationsRaiseTheirErrorsOnly : Obligations.OperationsRaiseTheirErrorsOnly := by
  refine ⟨fun e i hi => ⟨fun ⟨s, hs⟩ => ?_, fun hmem => ⟨failingState e, exec_failing e i hmem⟩⟩,
    rfl, rfl, rfl, rfl, rfl⟩
  exact (mem_errorsOf_iff e i hi).mp (exec_raises hs rfl).1

/-- Settles O43: the code of an error is none of 0 and 9 to 15. -/
theorem statusCodes : Obligations.StatusCodes := by
  have herr : ∀ e : Err, errStatus e ≠ 0 ∧ (errStatus e).toNat ≤ 8 := fun e => by cases e <;> decide
  refine ⟨⟨rfl, rfl, rfl, rfl, rfl, rfl, rfl, rfl⟩, fun r => ?_, fun r => ?_⟩
  · cases r with
    | ok v => exact ⟨fun _ => ⟨v, rfl⟩, fun _ => rfl⟩
    | err e => exact ⟨fun h => absurd h (herr e).1, fun ⟨_, h⟩ => nomatch h⟩
  · cases r with
    | ok v => exact Nat.zero_le 8
    | err e => exact (herr e).2

end Sys2Proof.Proofs
end

section
/-!
PROOFS. The family of reset and hazards: what the block is ready for right after reset
(spec/70_reset_and_hazards.md).
-/

namespace Sys2Proof.Proofs

open Machine

/-- Settles O5: after reset and in any other idle state alike, the one result delivered is the transaction's
answer alone (R21). -/
theorem resetIsIdleAndReady : Obligations.ResetIsIdleAndReady := by
  refine ⟨rfl, rfl, rfl, fun t ht => ?_⟩
  obtain ⟨s', r, hstep, hdone, hres, hr⟩ := step_answers (s := { State.reset with pending := [t] }) rfl ht
  refine ⟨s', r, hstep, hdone, hres, fun idle _ => ?_⟩
  obtain ⟨s'', r', hstep', hdone', hres', hr'⟩ := step_answers (s := { idle with pending := [t] }) rfl ht
  obtain rfl : r = r' := Option.some.inj (hr.symm.trans hr')
  exact ⟨s'', hstep', hdone', hres'⟩

end Sys2Proof.Proofs
end
